-- ==== Sys2Proof/Word.lean ====
section
/-! DEFINITION. The word types of the keystream generator (spec/00_scope.md rules R7, R8).
Their arithmetic is BitVec's own: `+` is the spec's `+32` (R9, R101), `^^^` its `^`. -/

namespace Sys2Proof

/-- A byte: 8 bits, bit 0 the least significant (R8). -/
abbrev Byte := BitVec 8

/-- A word: "an unsigned 32-bit value" (R7). -/
abbrev Word := BitVec 32

/-- An argument register's value: 64 bits (R28). -/
abbrev DWord := BitVec 64

/-- One row of the State matrix: four words (R7). -/
abbrev Row := Vector Word 4

/-- The State matrix `S[0]..S[15]`; row r is words `4r .. 4r+3` (R7, R20). -/
abbrev StateWords := Vector Word 16

end Sys2Proof
end

