-- ==== Sys2Proof/Syntax.lean ====
section
/-! DEFINITION. The instructions: the six commands of spec/opcode_table.json (30_encoding.md rule R87), one constructor
each. Their other operands are the argument registers A0..A2 (R86), which are state and not syntax. -/

namespace Sys2Proof

/-- A command. A round count is an unsigned count (R85), so a Nat; WellFormed.lean bounds it by the field's 255. -/
inductive Instr where
  /-- SETUP.RFC, OP 0x01, format S (R82, R121). -/
  | setupRfc
  /-- SETUP.EXT, OP 0x02, format E; `k128` is CMD[16]: false = 256-bit key, true = 128-bit key (R83, R123). -/
  | setupExt (k128 : Bool)
  /-- BLOCK.S, OP 0x10, format R (R84, R141). -/
  | blockS (rounds : Nat)
  /-- BLOCK.A, OP 0x11, format R (R84, R143). -/
  | blockA (rounds : Nat)
  /-- BLOCK.B, OP 0x12, format R (R84, R144). -/
  | blockB (rounds : Nat)
  /-- ENCRYPT, OP 0x20, format R (R84, R161). -/
  | encrypt (rounds : Nat)
  deriving DecidableEq, Repr

end Sys2Proof
end

