-- ==== Sys2Proof/Config.lean ====
section
/-! DEFINITION. The implementation parameters of spec/00_scope.md rule R6 as one plain record, so that a claim about
every state is a claim for every choice of the OPEN parameters (DESIGN CHOICE, safe: log 4). The functions that read it
stand in Machine/Operands.lean and Machine/Flags.lean. -/

namespace Sys2Proof

/-- The half-open range of buffer-memory byte addresses `lo, .., hi - 1`. -/
structure Region where
  lo : Nat
  hi : Nat
  deriving DecidableEq, Repr

/-- `EXT_NONCE_ORDER` (R6, R127): which half of the 64-bit nonce goes to `S[14]`. -/
inductive NonceOrder where
  /-- LO_FIRST: `S[14] = A1[31:0]`. -/
  | loFirst
  /-- HI_FIRST: `S[14] = A1[63:32]`. -/
  | hiFirst
  deriving DecidableEq, Repr

/-- The parameters of rule R6, constant for the life of an instance (R32, R223). -/
structure Config where
  /-- `STRIDE_A`: blocks per BLOCK.A, 0 when backend A is unavailable (R33). -/
  strideA : Fin 256
  /-- `STRIDE_B`: blocks per BLOCK.B, 0 when backend B is unavailable (R33). -/
  strideB : Fin 256
  /-- `none`: `HAS_KEY128` = 0. `some c`: `HAS_KEY128` = 1 and `K128_CONST` = c, which is "only read when
  `HAS_KEY128` = 1" (R6; DESIGN CHOICE, safe: log 6). -/
  key128 : Option Row
  /-- `EXT_NONCE_ORDER`. -/
  nonceOrder : NonceOrder
  /-- `ADDR_W`: the width in bits of a buffer-memory byte address; 1..64 (WellFormed.lean checks it). -/
  addrW : Nat
  /-- `MemOK`, given by the address ranges where it is false (DESIGN CHOICE, safe: log 7). -/
  unbacked : List Region
  deriving DecidableEq, Repr

/-- R6's reference configuration and defaults, with the `MemOK` of the test platform of spec/95_test_vectors.md,
`MemOK(a) = (a < 0x10000)` (DESIGN CHOICE, unsafe for a claim about State.reset alone: log 5). -/
def Config.reference : Config where
  strideA := 1
  strideB := 2
  key128 := none
  nonceOrder := .loFirst
  addrW := 64
  unbacked := [⟨0x10000, 2 ^ 64⟩]

end Sys2Proof
end

