-- ==== Sys2Proof/WellFormed.lean ====
section
/-! DEFINITION. What makes an instruction and a configuration well formed. -/

namespace Sys2Proof

/-- Every operand fits its field: ROUNDS is 0..255 (R81, R85; the assembler "rejects a count above 255", R91). An odd
count is well formed: it is a field-value fault, not a decode fault (R85, R90). -/
def Instr.wellFormed : Instr → Bool
  | .setupRfc => true
  | .setupExt _ => true
  | .blockS r => decide (r ≤ 255)
  | .blockA r => decide (r ≤ 255)
  | .blockB r => decide (r ≤ 255)
  | .encrypt r => decide (r ≤ 255)

/-- `ADDR_W` is 1..64 (R6); the strides are 0..255 by their type. -/
def Config.wellFormed (c : Config) : Bool :=
  decide (1 ≤ c.addrW) && decide (c.addrW ≤ 64)

end Sys2Proof
end

