-- ==== Sys2Proof/Decode.lean ====
section
/-! DEFINITION. The command word: the decoder, total on all 2^32 words and rejecting by name (30_encoding.md rule R88),
then the encoder, the assembler's check and the opcode table's rows. -/

namespace Sys2Proof

/-- Why the decoder rejects a command word (R88). -/
inductive Reject where
  /-- CMD[7:0] is no operation code of the opcode map (R87, R89). -/
  | illegalOpcode
  /-- A legal OP with a nonzero reserved bit (R82 to R84, R89). -/
  | reservedBits
  deriving DecidableEq, Repr

/-- OP, CMD[7:0] (R81). -/
def opField (v : Word) : Byte := v.extractLsb' 0 8

/-- ROUNDS, CMD[15:8], zero-extended: an unsigned count, neither sign-extended nor scaled (R81, R85). -/
def roundsField (v : Word) : Nat := (v.extractLsb' 8 8).toNat

/-- K128, CMD[16] (R81, R85). -/
def k128Field (v : Word) : Bool := v.getLsbD 16

/-- A nonzero reserved bit of format S: bits 31:8 (R82). -/
def reservedS (v : Word) : Bool := v.extractLsb' 8 24 != 0

/-- A nonzero reserved bit of format E: bits 31:17 and 15:8 (R83). -/
def reservedE (v : Word) : Bool := v.extractLsb' 17 15 != 0 || v.extractLsb' 8 8 != 0

/-- A nonzero reserved bit of format R: bits 31:16 (R84). -/
def reservedR (v : Word) : Bool := v.extractLsb' 16 16 != 0

/-- The last line of rule R88's decode: the instruction, unless a reserved bit is set. -/
def accept (reserved : Bool) (i : Instr) : Except Reject Instr :=
  if reserved then .error .reservedBits else .ok i

/-- Rule R88's decode with the opcode map of R87. -/
def decode (v : Word) : Except Reject Instr :=
  if opField v = 0x01 then accept (reservedS v) .setupRfc
  else if opField v = 0x02 then accept (reservedE v) (.setupExt (k128Field v))
  else if opField v = 0x10 then accept (reservedR v) (.blockS (roundsField v))
  else if opField v = 0x11 then accept (reservedR v) (.blockA (roundsField v))
  else if opField v = 0x12 then accept (reservedR v) (.blockB (roundsField v))
  else if opField v = 0x20 then accept (reservedR v) (.encrypt (roundsField v))
  else .error .illegalOpcode

/-- Format S (R82): `0000 0000 0000 0000 0000 0000 oooo oooo`. -/
def encodeS (op : Byte) : Word := 0#24 ++ op

/-- Format E (R83): `0000 0000 0000 000k 0000 0000 oooo oooo`. -/
def encodeE (op : Byte) (k128 : Bool) : Word := 0#15 ++ BitVec.ofBool k128 ++ 0#8 ++ op

/-- Format R (R84): `0000 0000 0000 0000 rrrr rrrr oooo oooo`. -/
def encodeR (op : Byte) (rounds : Nat) : Word := 0#16 ++ BitVec.ofNat 8 rounds ++ op

/-- The command word of a well-formed instruction (R82 to R84, R87). -/
def encode : Instr → Word
  | .setupRfc => encodeS 0x01
  | .setupExt k => encodeE 0x02 k
  | .blockS r => encodeR 0x10 r
  | .blockA r => encodeR 0x11 r
  | .blockB r => encodeR 0x12 r
  | .encrypt r => encodeR 0x20 r

/-- The assembler (R91): the command word, or nothing for a round count above 255. -/
def assemble (i : Instr) : Option Word :=
  if i.wellFormed then some (encode i) else none

/-- The command word whose `nbits` bits are those of `w`, as spec/opcode_table.json numbers them, every higher bit 0. A
command is one 32-bit word (R80), so the table's numbering is the word's own. -/
def tableWord (nbits w : Nat) : Word := BitVec.ofNat 32 (w % 2 ^ nbits)

/-- The instruction the decoder reads from the table's word; no command is longer than 32 bits (R80). -/
def decodeTableWord (nbits w : Nat) : Option Instr :=
  if nbits ≤ 32 then (decode (tableWord nbits w)).toOption else none

/-- `match` of the instruction's row of spec/opcode_table.json. -/
def Instr.rowMatch : Instr → Word
  | .setupRfc => 0x00000001
  | .setupExt _ => 0x00000002
  | .blockS _ => 0x00000010
  | .blockA _ => 0x00000011
  | .blockB _ => 0x00000012
  | .encrypt _ => 0x00000020

/-- `mask` of the instruction's row of spec/opcode_table.json. -/
def Instr.rowMask : Instr → Word
  | .setupRfc => 0xFFFFFFFF
  | .setupExt _ => 0xFFFEFFFF
  | .blockS _ => 0xFFFF00FF
  | .blockA _ => 0xFFFF00FF
  | .blockB _ => 0xFFFF00FF
  | .encrypt _ => 0xFFFF00FF

end Sys2Proof
end

