-- ==== Sys2Proof/Machine/State.lean ====
section
/-! DEFINITION. The machine's state as plain data (10_state.md; INVENTORY.md lists every piece), what can stop a step,
and the state after reset. -/

namespace Sys2Proof.Machine

/-- Which layout the State was set up with: STATUS.LAYOUT, 0 = RFC, 1 = EXT (R25). -/
inductive Layout where
  | rfc
  | ext
  deriving DecidableEq, Repr

/-- The causes a command can fault with (60_exceptions.md rule R200, codes 1 to 9). -/
inductive FaultCode where
  | illegalOpcode
  | reservedBits
  | badKeybits
  | badRounds
  | unavailable
  | notInit
  | range
  | overlap
  | bus
  deriving DecidableEq, Repr

/-- What STATUS.ERR and FAULT.FIRST hold: OK (code 0) or a fault's code. "Codes 10..255 are never produced" (R200). -/
inductive Code where
  | ok
  | fault (f : FaultCode)
  deriving DecidableEq, Repr

/-- One action of the host or the platform, between commands (R92, R60, R220; DESIGN CHOICE: log 1). -/
inductive HostOp where
  /-- A 32-bit write of `v` at byte offset `off` of the register window (R36; `WR` of R92). -/
  | wr (off : Nat) (v : Word)
  /-- A 32-bit read at byte offset `off` of the register window (R36; `RD` of R92). -/
  | rd (off : Nat)
  /-- The host writes bytes into buffer memory (`MEM` of R92). -/
  | memWr (addr : Nat) (bytes : List Byte)
  /-- The host reads a byte of buffer memory (R60). -/
  | memRd (addr : Nat)
  /-- The platform resets the block (R220). -/
  | reset
  deriving DecidableEq, Repr

/-- What a read of the host was answered (the model's own record: log 3). -/
inductive Answer where
  /-- The register at `off` read as `v`. -/
  | reg (off : Nat) (v : Word)
  /-- The buffer byte at `addr` read as `b`. -/
  | mem (addr : Nat) (b : Byte)
  deriving DecidableEq, Repr

/-- Why a step stops with a fault. No command raises one: a command that faults is a next state (R202). -/
inductive Fault where
  /-- Raised by a host access to a buffer byte outside `0 .. 2^ADDR_W - 1`, which does not exist (R60). Safe: log 9. -/
  | outsideBuffer (addr : Nat)
  /-- Raised by a host access to a buffer byte that the platform does not back (`MemOK` false; R69, R71). Safe: log 9. -/
  | unbackedByte (addr : Nat)
  deriving DecidableEq, Repr

/-- Why a step is refused. -/
inductive Refusal where
  /-- An instruction that has no meaning yet, by its mnemonic. No arm of exec raises it. Safe. -/
  | notModelled (mnemonic : String)
  /-- Raised by a host register access at an offset that is no multiple of 4 or not below 0x080: "not admitted: the model
  gives the host no such step" (R36). Safe: log 10. -/
  | accessNotAdmitted (off : Nat)
  deriving DecidableEq, Repr

/-- Buffer memory (R60): (address, byte) pairs, addresses strictly rising, no entry equal to what an unlisted address
reads as (Memory.wf in Ops.lean). -/
abbrev Memory := List Host.Cell

/-- Everything the spec gives the machine, with the model's own `host` and `answers`. -/
structure State where
  /-- The parameters of R6; no step changes them (R223; log 4). -/
  cfg : Config
  /-- The State matrix (R20). -/
  S : StateWords
  /-- STATUS.ERR (R30). -/
  err : Code
  /-- STATUS.VALID (R26). -/
  valid : Bool
  /-- STATUS.LAYOUT (R25). -/
  layout : Layout
  /-- FAULT.FIRST (R31). -/
  first : Code
  /-- Argument register A0 (R28). -/
  a0 : DWord
  /-- Argument register A1 (R28). -/
  a1 : DWord
  /-- Argument register A2 (R28). -/
  a2 : DWord
  /-- Buffer memory (R60). -/
  mem : Memory
  /-- The host's actions still to come, next first (the model's own: log 1). -/
  host : List HostOp
  /-- What the host's reads were answered, newest first (the model's own: log 3). -/
  answers : List Answer
  deriving DecidableEq, Repr

/-- The block right after reset (R39, R220), for any parameters. -/
def State.resetFor (cfg : Config) : State where
  cfg := cfg
  S := #v[0, 0, 0, 0, 0, 0, 0, 0, 0, 0, 0, 0, 0, 0, 0, 0]
  err := .ok
  valid := false
  layout := .rfc
  first := .ok
  a0 := 0
  a1 := 0
  a2 := 0
  mem := []
  host := []
  answers := []

/-- The machine right after reset in the reference configuration, with nothing listed in memory (R39; log 5, log 8). -/
def State.reset : State := State.resetFor Config.reference

end Sys2Proof.Machine
end

