-- ==== Sys2Proof/Machine/Ops.lean ====
section
/-! DEFINITION. The named operations over memory and registers: little-endian packing (00_scope.md R10), buffer memory
(20_memory.md), recording a fault or a completion (60_exceptions.md R202, R203), and reset (70_reset_and_hazards.md R220). -/

namespace Sys2Proof.Machine

/-! ### Bytes and words -/

/-- R10: `le32(b0, b1, b2, b3) = b0 + 2^8*b1 + 2^16*b2 + 2^24*b3`. -/
def le32 (b0 b1 b2 b3 : Byte) : Word := b3 ++ b2 ++ b1 ++ b0

/-- R10: `bytes_le(w) = (w[7:0], w[15:8], w[23:16], w[31:24])`. -/
def bytesLe (w : Word) : List Byte :=
  [w.extractLsb' 0 8, w.extractLsb' 8 8, w.extractLsb' 16 8, w.extractLsb' 24 8]

/-- The low half `v[31:0]` of an argument register (R28). -/
def loHalf (v : DWord) : Word := v.extractLsb' 0 32

/-- The high half `v[63:32]` of an argument register (R28). -/
def hiHalf (v : DWord) : Word := v.extractLsb' 32 32

/-- Two byte strings XORed position by position (R70: `out[j] = in[j] ^ ks[j]`). -/
def xorBytes (xs ys : List Byte) : List Byte := List.zipWith (· ^^^ ·) xs ys

/-! ### Buffer memory -/

/-- What a byte of buffer memory that nothing has written reads as (DESIGN CHOICE, unsafe: log 8; the initial memory of
the test platform of spec/95_test_vectors.md). -/
def Memory.unlisted : Byte := 0

/-- The canonical form: addresses strictly rising, and no entry equal to what an unlisted address reads as. -/
abbrev Memory.wf (m : Memory) : Prop :=
  m.Pairwise (fun c d => c.1 < d.1) ∧ ∀ c ∈ m, c.2 ≠ Memory.unlisted

/-- `MemRead(a, 1)` (R9, R63). -/
def Memory.read : Memory → Nat → Byte
  | [], _ => Memory.unlisted
  | (k, b) :: m, a => if k = a then b else Memory.read m a

/-- The cell (a, v) before the cells of `m`, left out when it is what an unlisted address reads as. -/
def Memory.cons (a : Nat) (v : Byte) (m : Memory) : Memory :=
  if v = Memory.unlisted then m else (a, v) :: m

/-- `MemWrite(a, 1, v)` (R9, R63), in the canonical form. -/
def Memory.write : Memory → Nat → Byte → Memory
  | [], a, v => Memory.cons a v []
  | (k, b) :: m, a, v =>
    if a < k then Memory.cons a v ((k, b) :: m)
    else if a = k then Memory.cons a v m
    else (k, b) :: Memory.write m a v

/-- The `n` bytes at `a, a+1, ..` in increasing address order. -/
def Memory.readBytes (m : Memory) (a n : Nat) : List Byte :=
  (List.range n).map fun j => m.read (a + j)

/-- Writes the bytes at `a, a+1, ..` in increasing address order. -/
def Memory.writeBytes (m : Memory) (a : Nat) : List Byte → Memory
  | [] => m
  | b :: bs => Memory.writeBytes (m.write a b) (a + 1) bs

/-- The little-endian word whose bytes stand at `a .. a+3` (R64). -/
def Memory.readWord (m : Memory) (a : Nat) : Word :=
  le32 (m.read a) (m.read (a + 1)) (m.read (a + 2)) (m.read (a + 3))

/-- Four little-endian words from `a` on: 16 bytes of a key (R22). -/
def Memory.readRow (m : Memory) (a : Nat) : Row :=
  #v[m.readWord a, m.readWord (a + 4), m.readWord (a + 8), m.readWord (a + 12)]

/-! ### Faults and completion -/

/-- `raise F` (R202, R204): STATUS.ERR becomes F, FAULT.FIRST becomes F if it was 0, and nothing else changes. There is no
trap entry and no return (R206): this is all that taking an exception does on this hardware. -/
def raise (f : FaultCode) (s : State) : State :=
  { s with err := .fault f, first := if s.first = .ok then .fault f else s.first }

/-- A command that completes sets STATUS.ERR to 0 and leaves FAULT unchanged (R203). -/
def complete (s : State) : State := { s with err := .ok }

/-- The code of the first check, in the order of the list, whose cause holds (R201). -/
def firstFault : List (Bool × FaultCode) → Option FaultCode
  | [] => none
  | (cause, f) :: rest => if cause then some f else firstFault rest

/-- How every command ends (R11, R202, R203): the first check that fails faults with none of the command's effects, and
otherwise the command completes with all of them; `done` is the state with its effects. -/
def finish (s : State) (checks : List (Bool × FaultCode)) (done : State) :
    Host.Outcome State Fault Refusal :=
  match firstFault checks with
  | some f => .next (raise f s)
  | none => .next (complete done)

/-! ### Reset -/

/-- Reset (R39, R220): every piece of block state takes its reset value; the parameters, buffer memory and the model's own
fields are not the block's and stay (log 11). -/
def resetBlock (s : State) : State :=
  { State.resetFor s.cfg with mem := s.mem, host := s.host, answers := s.answers }

end Sys2Proof.Machine
end

