-- ==== Sys2Proof/Machine/Operands.lean ====
section
/-! DEFINITION. The operands a command takes from the argument registers (30_encoding.md R86), the buffer-memory ranges it
reads and writes (20_memory.md R66), and the checks on those ranges (R67 to R69). -/

namespace Sys2Proof.Machine

/-! ### Operand assembly (R86): every value is unsigned, none is sign-extended -/

/-- SETUP: the address of the key bytes, A0. -/
def keyAddr (s : State) : Nat := s.a0.toNat

/-- SETUP.RFC: the address of the 12 nonce bytes, A1. -/
def nonceAddr (s : State) : Nat := s.a1.toNat

/-- SETUP.RFC: the initial counter, A2[31:0]; A2[63:32] is ignored. -/
def startCounter (s : State) : Word := loHalf s.a2

/-- SETUP.EXT: the 64-bit nonce value, A1. -/
def extNonce (s : State) : DWord := s.a1

/-- Block producers: the input address, A0. -/
def inAddr (s : State) : Nat := s.a0.toNat

/-- Block producers: the output address, A1. -/
def outAddr (s : State) : Nat := s.a1.toNat

/-- ENCRYPT: the byte count N, A2. -/
def byteCount (s : State) : Nat := s.a2.toNat

/-- The key's length in bytes: 32, or 16 with a 128-bit key (R123). -/
def keyLen (k128 : Bool) : Nat := if k128 then 16 else 32

/-! ### Ranges -/

/-- The range of buffer-memory bytes `[base, base + len)`, computed without wrap (R66, R67). -/
structure Span where
  base : Nat
  len : Nat
  deriving DecidableEq, Repr

/-- The range stays inside `[0, 2^ADDR_W)`; an empty range fails only by its base (R67). -/
def Span.inSpace (c : Config) (p : Span) : Bool :=
  decide (p.base < 2 ^ c.addrW) && decide (p.base + p.len ≤ 2 ^ c.addrW)

/-- Input range `i` and output range `o` overlap in a way that is not admitted: neither equal bases, nor disjoint, nor
empty (R68). -/
def Span.clashes (i o : Span) : Bool :=
  !(decide (i.base = o.base) || decide (o.base + o.len ≤ i.base) || decide (i.base + i.len ≤ o.base) ||
    decide (i.len = 0))

/-- `MemOK(a)` (R6, R69): no unbacked range holds the address. -/
def memOK (c : Config) (a : Nat) : Bool :=
  c.unbacked.all fun r => decide (a < r.lo) || decide (r.hi ≤ a)

/-- `MemOK` holds of every byte of the range (R69): no unbacked range meets it. Laws/Checks.lean proves this is the same as
asking byte by byte. -/
def Span.backed (c : Config) (p : Span) : Bool :=
  decide (p.len = 0) || c.unbacked.all fun r =>
    decide (p.base + p.len ≤ r.lo) || decide (r.hi ≤ p.base) || decide (r.hi ≤ r.lo)

/-- The RANGE, OVERLAP and BUS checks of a command with the given footprint, in their order (R67 to R69, R201). -/
def accessChecks (c : Config) (rd wr : List Span) : List (Bool × FaultCode) :=
  [((rd ++ wr).any fun p => !p.inSpace c, .range),
   (rd.any fun i => wr.any fun o => i.clashes o, .overlap),
   ((rd ++ wr).any fun p => !p.backed c, .bus)]

/-! ### The footprint table (R66) -/

/-- The ranges a command reads. -/
def reads : Instr → State → List Span
  | .setupRfc, s => [⟨s.a0.toNat, 32⟩, ⟨s.a1.toNat, 12⟩]
  | .setupExt false, s => [⟨s.a0.toNat, 32⟩]
  | .setupExt true, s => [⟨s.a0.toNat, 16⟩]
  | .blockS _, s => [⟨s.a0.toNat, 64⟩]
  | .blockA _, s => [⟨s.a0.toNat, 64 * s.cfg.strideA⟩]
  | .blockB _, s => [⟨s.a0.toNat, 64 * s.cfg.strideB⟩]
  | .encrypt _, s => [⟨s.a0.toNat, s.a2.toNat⟩]

/-- The ranges a command writes. -/
def writes : Instr → State → List Span
  | .setupRfc, _ => []
  | .setupExt _, _ => []
  | .blockS _, s => [⟨s.a1.toNat, 64⟩]
  | .blockA _, s => [⟨s.a1.toNat, 64 * s.cfg.strideA⟩]
  | .blockB _, s => [⟨s.a1.toNat, 64 * s.cfg.strideB⟩]
  | .encrypt _, s => [⟨s.a1.toNat, s.a2.toNat⟩]

end Sys2Proof.Machine
end

