-- ==== Sys2Proof/Machine/RoundCore.lean ====
section
/-! DEFINITION. The pure functions the commands are defined with: the round core, the block function, the counter and the
keystream (40_round_core.md). -/

namespace Sys2Proof.Machine

/-! ### Word operations and the quarter-round -/

/-- R100: `((x << n) | (x >> (32 - n))) mod 2^32`. -/
def rotl (x : Word) (n : Nat) : Word := (x <<< n) ||| (x >>> (32 - n))

/-- R102: `QR(a, b, c, d)`; each assignment uses the value written by the assignment before it. -/
def qr (a b c d : Word) : Word × Word × Word × Word :=
  let a := a + b
  let d := rotl (d ^^^ a) 16
  let c := c + d
  let b := rotl (b ^^^ c) 12
  let a := a + b
  let d := rotl (d ^^^ a) 8
  let c := c + d
  let b := rotl (b ^^^ c) 7
  (a, b, c, d)

/-- R103: `QR_at(x, i, j, k, l)`; the other twelve words are unchanged. -/
def qrAt (x : StateWords) (i j k l : Fin 16) : StateWords :=
  match qr x[i] x[j] x[k] x[l] with
  | (a, b, c, d) => (((x.set i a).set j b).set k c).set l d

/-! ### Rounds -/

/-- R104: the "column" groupings. -/
def columnRound (x : StateWords) : StateWords :=
  qrAt (qrAt (qrAt (qrAt x 0 4 8 12) 1 5 9 13) 2 6 10 14) 3 7 11 15

/-- R105: the "diagonal" groupings. -/
def diagonalRound (x : StateWords) : StateWords :=
  qrAt (qrAt (qrAt (qrAt x 0 5 10 15) 1 6 11 12) 2 7 8 13) 3 4 9 14

/-- R106: `double_round(x) = diagonal_round(column_round(x))`. -/
def doubleRound (x : StateWords) : StateWords := diagonalRound (columnRound x)

/-- R107: `permute(x, r)` applies `double_round` r/2 times. It is used with even r only: every command faults BAD_ROUNDS on
an odd count before it gets here (R90). -/
def permute (x : StateWords) (r : Nat) : StateWords := Nat.iterate doubleRound (r / 2) x

/-! ### The block function -/

/-- R108: `y[i] = x[i] +32 S[i]`. -/
def feedForward (x S : StateWords) : StateWords := Vector.ofFn fun i => x[i] + S[i]

/-- R108: the 16 words serialized little-endian, word 0 first. -/
def serialize (y : StateWords) : List Byte := y.toList.flatMap bytesLe

/-- R108: `Block(S, r)`, 64 bytes. -/
def block (S : StateWords) (r : Nat) : List Byte := serialize (feedForward (permute S r) S)

/-! ### The counter -/

/-- `CW`, the counter's width in bits (R109). -/
def Layout.cw : Layout → Nat
  | .rfc => 32
  | .ext => 64

/-- R109: `ctr(S)`, `S[12]` under RFC and `{S[13], S[12]}` under EXT. -/
def ctr : Layout → StateWords → Nat
  | .rfc, S => S[12].toNat
  | .ext, S => (S[13] ++ S[12]).toNat

/-- R110: `with_ctr(S, v)`; under RFC no carry ever reaches `S[13]` (90_conflicts.md C1). -/
def withCtr : Layout → StateWords → Nat → StateWords
  | .rfc, S, v => S.set 12 (BitVec.ofNat 32 v)
  | .ext, S, v => (S.set 12 (BitVec.ofNat 32 v)).set 13 (BitVec.ofNat 32 (v / 2 ^ 32))

/-- R111: `advance(S, k) = with_ctr(S, (ctr(S) + k) mod 2^CW)`. -/
def advance (l : Layout) (S : StateWords) (k : Nat) : StateWords :=
  withCtr l S ((ctr l S + k) % 2 ^ l.cw)

/-! ### The keystream -/

/-- `ceil(n / 64)` (R9): the blocks that n bytes of keystream need. -/
def blocksFor (n : Nat) : Nat := (n + 63) / 64

/-- R112: block number i of the keystream, made at counter `(c + i) mod 2^CW`. -/
def keyBlock (l : Layout) (S : StateWords) (r i : Nat) : List Byte :=
  block (withCtr l S ((ctr l S + i) % 2 ^ l.cw)) r

/-- R112: `KS(S, r, n)`, the first n bytes of the concatenated blocks. -/
def keystream (l : Layout) (S : StateWords) (r n : Nat) : List Byte :=
  ((List.range (blocksFor n)).flatMap (keyBlock l S r)).take n

end Sys2Proof.Machine
end

