-- ==== Sys2Proof/Machine/Setup.lean ====
section
/-! DEFINITION. The state initializer: SETUP.RFC and SETUP.EXT (41_setup.md). -/

namespace Sys2Proof.Machine

/-- `SIGMA`: "expand 32-byte k" as four little-endian words (R21). -/
def sigma : Row := #v[0x61707865, 0x3320646e, 0x79622d32, 0x6b206574]

/-- The State matrix with the given rows (R7: row r is words 4r..4r+3). -/
def ofRows (r0 r1 r2 r3 : Row) : StateWords :=
  #v[r0[0], r0[1], r0[2], r0[3], r1[0], r1[1], r1[2], r1[3],
     r2[0], r2[1], r2[2], r2[3], r3[0], r3[1], r3[2], r3[3]]

/-- What a successful SETUP writes: all 16 words, LAYOUT and VALID (R121, R123); ERR is `finish`'s. -/
def setUp (l : Layout) (S : StateWords) (s : State) : State :=
  { s with S := S, layout := l, valid := true }

/-- Row 3 of SETUP.RFC: the counter, then the three nonce words (R23, R121). -/
def rfcRow3 (s : State) : Row :=
  #v[startCounter s, s.mem.readWord (nonceAddr s), s.mem.readWord (nonceAddr s + 4),
     s.mem.readWord (nonceAddr s + 8)]

/-- The State words SETUP.RFC loads (R121). -/
def rfcWords (s : State) : StateWords :=
  ofRows sigma (s.mem.readRow (keyAddr s)) (s.mem.readRow (keyAddr s + 16)) (rfcRow3 s)

/-- SETUP.RFC (R121). -/
def execSetupRfc (s : State) : Host.Outcome State Fault Refusal :=
  finish s (accessChecks s.cfg [⟨keyAddr s, 32⟩, ⟨nonceAddr s, 12⟩] [])
    (setUp .rfc (rfcWords s) s)

/-- Row 3 of SETUP.EXT: the 64-bit counter at 0 (R128), then the nonce's halves in the order `EXT_NONCE_ORDER` (R127). -/
def extRow3 (s : State) : Row :=
  match s.cfg.nonceOrder with
  | .loFirst => #v[0, 0, loHalf (extNonce s), hiHalf (extNonce s)]
  | .hiFirst => #v[0, 0, hiHalf (extNonce s), loHalf (extNonce s)]

/-- The State words SETUP.EXT loads: with a 256-bit key SIGMA and 32 key bytes (R124), with a 128-bit key `K128_CONST`
(R126) and the 16 key bytes in both key rows (R125). `K128_CONST` is read only when `HAS_KEY128` = 1 (R6): otherwise
BAD_KEYBITS ends the command first. -/
def extWords (k128 : Bool) (s : State) : StateWords :=
  if k128 then
    ofRows (s.cfg.key128.getD sigma) (s.mem.readRow (keyAddr s)) (s.mem.readRow (keyAddr s)) (extRow3 s)
  else
    ofRows sigma (s.mem.readRow (keyAddr s)) (s.mem.readRow (keyAddr s + 16)) (extRow3 s)

/-- SETUP.EXT (R123). -/
def execSetupExt (k128 : Bool) (s : State) : Host.Outcome State Fault Refusal :=
  finish s ((k128 && s.cfg.key128.isNone, .badKeybits) ::
      accessChecks s.cfg [⟨keyAddr s, keyLen k128⟩] [])
    (setUp .ext (extWords k128 s) s)

end Sys2Proof.Machine
end

