-- ==== Sys2Proof/Machine/Block.lean ====
section
/-! DEFINITION. The block producers BLOCK.S, BLOCK.A and BLOCK.B (42_block.md). One function serves all three (R145). -/

namespace Sys2Proof.Machine

/-- The effects that BLOCKS (R140) and ENCRYPT (R161) share: `len` input bytes XOR keystream go to the output range, and
the counter advances by `n` blocks. All input bytes are taken before an output byte is written, which R70 allows (log 12). -/
def produce (r len n : Nat) (s : State) : State :=
  { s with
    mem := s.mem.writeBytes (outAddr s)
      (xorBytes (s.mem.readBytes (inAddr s) len) (keystream s.layout s.S r len))
    S := advance s.layout s.S n }

/-- BAD_ROUNDS: the round count is odd (R90). -/
def oddRounds (r : Nat) : Bool := r % 2 == 1

/-- R140: `BLOCKS(k, r)`. -/
def runBlocks (k r : Nat) (s : State) : Host.Outcome State Fault Refusal :=
  finish s
    ((oddRounds r, .badRounds) :: (k == 0, .unavailable) :: (!s.valid, .notInit) ::
      accessChecks s.cfg [⟨inAddr s, 64 * k⟩] [⟨outAddr s, 64 * k⟩])
    (produce r (64 * k) k s)

/-- BLOCK.S (R141): the scalar stride is 1. -/
def execBlockS (r : Nat) (s : State) : Host.Outcome State Fault Refusal := runBlocks 1 r s

/-- BLOCK.A (R143). -/
def execBlockA (r : Nat) (s : State) : Host.Outcome State Fault Refusal := runBlocks s.cfg.strideA r s

/-- BLOCK.B (R144). -/
def execBlockB (r : Nat) (s : State) : Host.Outcome State Fault Refusal := runBlocks s.cfg.strideB r s

end Sys2Proof.Machine
end

