-- ==== Sys2Proof/Machine/Stream.lean ====
section
/-! DEFINITION. The stream XOR driver: ENCRYPT (43_stream.md). -/

namespace Sys2Proof.Machine

/-- ENCRYPT (R161). -/
def execEncrypt (r : Nat) (s : State) : Host.Outcome State Fault Refusal :=
  finish s
    ((oddRounds r, .badRounds) :: (!s.valid, .notInit) ::
      accessChecks s.cfg [⟨inAddr s, byteCount s⟩] [⟨outAddr s, byteCount s⟩])
    (produce r (byteCount s) (blocksFor (byteCount s)) s)

/-! ### The backend schedule (R162), not observable: Obligations.EncryptScheduleIsNotObservable says so -/

/-- The stride of the SIMD backend the driver uses: the larger of the two, A on a tie; 0 when neither is available. -/
def scheduleStride (c : Config) : Nat :=
  if c.strideB.val ≤ c.strideA.val then c.strideA else c.strideB

/-- The chunk lengths of R162's three steps for N bytes: full `stride*64`-byte chunks, then full 64-byte chunks, then the
final partial chunk. -/
def scheduleChunks (stride n : Nat) : List Nat :=
  let wide := n / (64 * stride)
  let rest := n - wide * (64 * stride)
  List.replicate wide (64 * stride) ++ List.replicate (rest / 64) 64 ++
    (if rest % 64 = 0 then [] else [rest % 64])

/-- Runs the chunks one after another: each reads and writes at the current position of the stream, with the counter its
predecessors left; a partial chunk consumes a whole counter value (R163). -/
def runChunks (r : Nat) : List Nat → Nat → State → State
  | [], _, s => s
  | len :: rest, pos, s =>
    runChunks r rest (pos + len)
      { s with
        mem := s.mem.writeBytes (outAddr s + pos)
          (xorBytes (s.mem.readBytes (inAddr s + pos) len) (keystream s.layout s.S r len))
        S := advance s.layout s.S (blocksFor len) }

/-- ENCRYPT's effects made by the driver's schedule (R162). -/
def encryptBySchedule (r : Nat) (s : State) : State :=
  runChunks r (scheduleChunks (scheduleStride s.cfg) (byteCount s)) 0 s

/-! ### Byte order inside a command (R70) -/

/-- The positions of a stream done one by one in the given order: each reads its input byte, then writes its output byte. -/
def xorInOrder (i o : Nat) (ks : List Byte) (order : List Nat) (m : Memory) : Memory :=
  order.foldl (fun m j => m.write (o + j) (m.read (i + j) ^^^ ks.getD j 0)) m

end Sys2Proof.Machine
end

