-- ==== Sys2Proof/Machine/Dispatch.lean ====
section
/-! DEFINITION. The one dispatch: each command's meaning (30_encoding.md rule R87 names the rule of each). -/

namespace Sys2Proof.Machine

/-- Executes one decoded command on the state it was issued in. -/
def exec (i : Instr) (s : State) : Host.Outcome State Fault Refusal :=
  match i with
  | .setupRfc => Sys2Proof.Machine.execSetupRfc s
  | .setupExt k128 => Sys2Proof.Machine.execSetupExt k128 s
  | .blockS r => Sys2Proof.Machine.execBlockS r s
  | .blockA r => Sys2Proof.Machine.execBlockA r s
  | .blockB r => Sys2Proof.Machine.execBlockB r s
  | .encrypt r => Sys2Proof.Machine.execEncrypt r s

end Sys2Proof.Machine
end

