-- ==== Sys2Proof/Machine/Flags.lean ====
section
/-! DEFINITION. The result codes and the values of the read-only registers STATUS, FAULT and CAP (60_exceptions.md R200;
10_state.md R30 to R32). The block has no other flags (R38). -/

namespace Sys2Proof.Machine

/-- The fault's code (R200). -/
def FaultCode.code : FaultCode → Byte
  | .illegalOpcode => 1
  | .reservedBits => 2
  | .badKeybits => 3
  | .badRounds => 4
  | .unavailable => 5
  | .notInit => 6
  | .range => 7
  | .overlap => 8
  | .bus => 9

/-- The 8-bit value of ERR or FIRST: 0 = OK, else the fault's code (R30, R31, R200). -/
def Code.toByte : Code → Byte
  | .ok => 0
  | .fault f => f.code

/-- STATUS.LAYOUT as a bit: 0 = RFC, 1 = EXT (R25). -/
def Layout.bit : Layout → Bool
  | .rfc => false
  | .ext => true

/-- STATUS (R30): ERR in bits 7:0, VALID in bit 8, LAYOUT in bit 9, bits 31:10 zero. -/
def statusWord (s : State) : Word :=
  0#22 ++ BitVec.ofBool s.layout.bit ++ BitVec.ofBool s.valid ++ s.err.toByte

/-- FAULT (R31): FIRST in bits 7:0, bits 31:8 zero. -/
def faultWord (s : State) : Word := 0#24 ++ s.first.toByte

/-- CAP (R32): STRIDE_S = 1 in bits 7:0, STRIDE_A in 15:8, STRIDE_B in 23:16, KEY128 in 24, bits 31:25 zero. -/
def capWord (c : Config) : Word :=
  0#7 ++ BitVec.ofBool c.key128.isSome ++ BitVec.ofNat 8 c.strideB ++ BitVec.ofNat 8 c.strideA ++ 1#8

end Sys2Proof.Machine
end

