-- ==== Sys2Proof/Machine/HostAccess.lean ====
section
/-! DEFINITION. What the host can do to the block: the register window (10_state.md R28 to R36), issuing a command
(R29), buffer memory between commands (20_memory.md R60) and reset (70_reset_and_hazards.md R220). -/

namespace Sys2Proof.Machine

/-! ### The register window -/

/-- The registers of the window (R35). -/
inductive Reg where
  | cmd
  | status
  | fault
  | cap
  | a0Lo
  | a0Hi
  | a1Lo
  | a1Hi
  | a2Lo
  | a2Hi
  /-- The reserved offset `0x028 + 4 * i`, i = 0..5. -/
  | reserved (i : Fin 6)
  /-- `Si`, at `0x040 + 4 * i`. -/
  | word (i : Fin 16)
  deriving DecidableEq, Repr

/-- The register's byte offset (R35). -/
def Reg.offset : Reg → Nat
  | .cmd => 0x000
  | .status => 0x004
  | .fault => 0x008
  | .cap => 0x00C
  | .a0Lo => 0x010
  | .a0Hi => 0x014
  | .a1Lo => 0x018
  | .a1Hi => 0x01C
  | .a2Lo => 0x020
  | .a2Hi => 0x024
  | .reserved i => 0x028 + 4 * i
  | .word i => 0x040 + 4 * i

/-- The register at a byte offset; none where no access is admitted: not a multiple of 4, or not below 0x080 (R36). -/
def Reg.ofOffset (off : Nat) : Option Reg :=
  if off % 4 ≠ 0 then none
  else match off / 4 with
    | 0 => some .cmd
    | 1 => some .status
    | 2 => some .fault
    | 3 => some .cap
    | 4 => some .a0Lo
    | 5 => some .a0Hi
    | 6 => some .a1Lo
    | 7 => some .a1Hi
    | 8 => some .a2Lo
    | 9 => some .a2Hi
    | n =>
      if h : n - 10 < 6 then some (.reserved ⟨n - 10, h⟩)
      else if h : n - 16 < 16 then some (.word ⟨n - 16, h⟩)
      else none

/-- What a host read of the register returns (R28 to R36). -/
def regRead (s : State) : Reg → Word
  | .cmd => 0
  | .status => statusWord s
  | .fault => faultWord s
  | .cap => capWord s.cfg
  | .a0Lo => loHalf s.a0
  | .a0Hi => hiHalf s.a0
  | .a1Lo => loHalf s.a1
  | .a1Hi => hiHalf s.a1
  | .a2Lo => loHalf s.a2
  | .a2Hi => hiHalf s.a2
  | .reserved _ => 0
  | .word i => s.S[i]

/-- The argument register with its low half replaced: `{old[63:32], v}` (R28, R36). -/
def setLo (old : DWord) (v : Word) : DWord := hiHalf old ++ v

/-- The argument register with its high half replaced: `{v, old[31:0]}` (R28, R36). -/
def setHi (old : DWord) (v : Word) : DWord := v ++ loHalf old

/-- A write to a register other than CMD: an RW register takes the 32 bits, a read-only register or a reserved offset
changes nothing (R36). -/
def regWrite (v : Word) (s : State) : Reg → State
  | .cmd => s
  | .status => s
  | .fault => s
  | .cap => s
  | .a0Lo => { s with a0 := setLo s.a0 v }
  | .a0Hi => { s with a0 := setHi s.a0 v }
  | .a1Lo => { s with a1 := setLo s.a1 v }
  | .a1Hi => { s with a1 := setHi s.a1 v }
  | .a2Lo => { s with a2 := setLo s.a2 v }
  | .a2Hi => { s with a2 := setHi s.a2 v }
  | .reserved _ => s
  | .word _ => s

/-! ### Issuing a command -/

/-- The fault of a word the decoder rejects (R88, R200). -/
def rejectFault : Reject → FaultCode
  | .illegalOpcode => .illegalOpcode
  | .reservedBits => .reservedBits

/-- A host write of v to CMD issues command v: the block decodes it and executes it to completion (R29). A rejected word
faults like any command (R88, R202). -/
def issue (v : Word) (s : State) : Host.Outcome State Fault Refusal :=
  match decode v with
  | .ok i => exec i s
  | .error e => .next (raise (rejectFault e) s)

/-- A host write in the register window (R36). -/
def hostWrite (off : Nat) (v : Word) (s : State) : Host.Outcome State Fault Refusal :=
  match Reg.ofOffset off with
  | none => .refused (.accessNotAdmitted off)
  | some .cmd => issue v s
  | some r => .next (regWrite v s r)

/-- A host read in the register window: it has no side effect on the block (R36); the answer is recorded (log 3). -/
def hostRead (off : Nat) (s : State) : Host.Outcome State Fault Refusal :=
  match Reg.ofOffset off with
  | none => .refused (.accessNotAdmitted off)
  | some r => .next { s with answers := .reg off (regRead s r) :: s.answers }

/-! ### Buffer memory between commands, and reset -/

/-- The first byte of the range that the host cannot reach, with the reason (log 9). -/
def hostMemFault (c : Config) (addr : Nat) : Nat → Option Fault
  | 0 => none
  | n + 1 =>
    if 2 ^ c.addrW ≤ addr then some (.outsideBuffer addr)
    else if !memOK c addr then some (.unbackedByte addr)
    else hostMemFault c (addr + 1) n

/-- The host writes bytes into buffer memory (R60, `MEM` of R92). -/
def hostMemWrite (addr : Nat) (bytes : List Byte) (s : State) : Host.Outcome State Fault Refusal :=
  match hostMemFault s.cfg addr bytes.length with
  | some f => .fault f
  | none => .next { s with mem := s.mem.writeBytes addr bytes }

/-- The host reads a byte of buffer memory (R60, R73); the answer is recorded (log 3). -/
def hostMemRead (addr : Nat) (s : State) : Host.Outcome State Fault Refusal :=
  match hostMemFault s.cfg addr 1 with
  | some f => .fault f
  | none => .next { s with answers := .mem addr (s.mem.read addr) :: s.answers }

/-- One action of the host or the platform. -/
def hostAction (op : HostOp) (s : State) : Host.Outcome State Fault Refusal :=
  match op with
  | .wr off v => hostWrite off v s
  | .rd off => hostRead off s
  | .memWr addr bytes => hostMemWrite addr bytes s
  | .memRd addr => hostMemRead addr s
  | .reset => .next (resetBlock s)

/-- The machine's next move: the next pending action is taken off the list and performed; with none pending the block
waits, unchanged (R5, R221; log 2). -/
def nextAction (s : State) : Host.Outcome State Fault Refusal :=
  match s.host with
  | [] => .next s
  | op :: rest => hostAction op { s with host := rest }

/-- The host action that issues the table's word: a write of it to CMD (R29). -/
def issueOf (nbits w : Nat) : HostOp := .wr Reg.cmd.offset (tableWord nbits w)

end Sys2Proof.Machine
end

