-- ==== Sys2Proof/Machine/Step.lean ====
section
/-! DEFINITION. The one step function. The block fetches nothing (10_state.md R38, 20_memory.md R62): a step is the next
action of the host, and a command is one atomic step (00_scope.md R11). -/

namespace Sys2Proof.Machine

/-- One step of the machine. -/
def step (s : State) : Host.Outcome State Fault Refusal := nextAction s

/-- The state in which the next step issues exactly the table's word: a CMD write at the head of the host's actions (log 1). -/
def State.withFetchWord (s : State) (nbits w : Nat) : State :=
  { s with host := issueOf nbits w :: s.host }

end Sys2Proof.Machine
end

