-- ==== Sys2Proof/Machine/HostProgram.lean ====
section
/-! DEFINITION. The assembler's side of the host (30_encoding.md R91 to R93): command lines as text, and host lines with
the pseudo-instructions expanded to host actions. -/

namespace Sys2Proof.Machine

/-! ### Command lines (R91) -/

/-- The value of a digit; either case of a hexadecimal letter (log 13). -/
def digitValue (c : Char) : Option Nat :=
  if '0'.toNat ≤ c.toNat ∧ c.toNat ≤ '9'.toNat then some (c.toNat - '0'.toNat)
  else if 'a'.toNat ≤ c.toNat ∧ c.toNat ≤ 'f'.toNat then some (c.toNat - 'a'.toNat + 10)
  else if 'A'.toNat ≤ c.toNat ∧ c.toNat ≤ 'F'.toNat then some (c.toNat - 'A'.toNat + 10)
  else none

/-- The number a run of digits of the given base spells, after `acc`. -/
def digits (base : Nat) : List Char → Nat → Option Nat
  | [], acc => some acc
  | c :: cs, acc =>
    match digitValue c with
    | some d => if d < base then digits base cs (acc * base + d) else none
    | none => none

/-- An operand: "decimal, or hexadecimal with `0x`" (R91). -/
def numeral : List Char → Option Nat
  | [] => none
  | '0' :: 'x' :: c :: cs => digits 16 (c :: cs) 0
  | c :: cs => digits 10 (c :: cs) 0

/-- The mnemonic and, after the first space, the operand. -/
def splitLine : List Char → List Char × Option (List Char)
  | [] => ([], none)
  | ' ' :: cs => ([], some cs)
  | c :: cs => (c :: (splitLine cs).1, (splitLine cs).2)

/-- The syntax column of rule R91's table: each mnemonic with the command it stands for at a round count (unused by the
SETUP mnemonics, which take no operand). -/
def plainCommands : List (List Char × Instr) :=
  [("SETUP.RFC".toList, .setupRfc),
   ("SETUP.EXT.K256".toList, .setupExt false),
   ("SETUP.EXT.K128".toList, .setupExt true)]

/-- The mnemonics of format R, which take one round-count operand (R91). -/
def roundCommands (r : Nat) : List (List Char × Instr) :=
  [("BLOCK.S".toList, .blockS r),
   ("BLOCK.A".toList, .blockA r),
   ("BLOCK.B".toList, .blockB r),
   ("ENCRYPT".toList, .encrypt r)]

/-- The command a line stands for. -/
def parseCommand (line : List Char) : Option Instr :=
  match splitLine line with
  | (name, none) => plainCommands.lookup name
  | (name, some operand) =>
    match numeral operand with
    | some r => (roundCommands r).lookup name
    | none => none

/-- The command word of a line: an odd round count assembles, a count above 255 is rejected (R91). -/
def assembleLine (line : List Char) : Option Word :=
  match parseCommand line with
  | some i => assemble i
  | none => none

/-! ### Host lines and pseudo-instructions (R92, R93) -/

/-- `An` in a pseudo-instruction. -/
inductive ArgReg where
  | a0
  | a1
  | a2
  deriving DecidableEq, Repr

/-- The register of `An_LO`. -/
def ArgReg.lo : ArgReg → Reg
  | .a0 => .a0Lo
  | .a1 => .a1Lo
  | .a2 => .a2Lo

/-- The register of `An_HI`. -/
def ArgReg.hi : ArgReg → Reg
  | .a0 => .a0Hi
  | .a1 => .a1Hi
  | .a2 => .a2Hi

/-- A line of a host program (R92) or a pseudo-instruction (R93); `r` defaults to 20. -/
inductive HostLine where
  /-- `WR reg, imm32`. -/
  | wr (reg : Reg) (imm : Word)
  /-- `RD reg`. -/
  | rd (reg : Reg)
  /-- `MEM addr: bytes`. -/
  | mem (addr : Nat) (bytes : List Byte)
  /-- A command mnemonic line M, which stands for `WR CMD, enc(M)`. -/
  | command (i : Instr)
  | wr64 (a : ArgReg) (v : DWord)
  | setupRfc (k n c : DWord)
  | setupExt (k nv : DWord)
  | setupExt128 (k nv : DWord)
  | blockS (i o : DWord) (r : Nat := 20)
  | blockA (i o : DWord) (r : Nat := 20)
  | blockB (i o : DWord) (r : Nat := 20)
  | encrypt (i o n : DWord) (r : Nat := 20)
  | decrypt (i o n : DWord) (r : Nat := 20)
  | chacha20 (i o n : DWord)
  deriving DecidableEq, Repr

/-- `WR64 An, v`: the low half, then the high half (R93). -/
def writeArg (a : ArgReg) (v : DWord) : List HostOp :=
  [.wr a.lo.offset (loHalf v), .wr a.hi.offset (hiHalf v)]

/-- A command after the writes of its argument registers; nothing where the assembler rejects the command (R91). -/
def commandAfter (args : List HostOp) (i : Instr) : Option (List HostOp) :=
  match assemble i with
  | some v => some (args ++ [.wr Reg.cmd.offset v])
  | none => none

/-- The host actions a line stands for (R92, R93). -/
def HostLine.expand : HostLine → Option (List HostOp)
  | .wr reg imm => some [.wr reg.offset imm]
  | .rd reg => some [.rd reg.offset]
  | .mem addr bytes => some [.memWr addr bytes]
  | .command i => commandAfter [] i
  | .wr64 a v => some (writeArg a v)
  | .setupRfc k n c => commandAfter (writeArg .a0 k ++ writeArg .a1 n ++ writeArg .a2 c) .setupRfc
  | .setupExt k nv => commandAfter (writeArg .a0 k ++ writeArg .a1 nv) (.setupExt false)
  | .setupExt128 k nv => commandAfter (writeArg .a0 k ++ writeArg .a1 nv) (.setupExt true)
  | .blockS i o r => commandAfter (writeArg .a0 i ++ writeArg .a1 o) (.blockS r)
  | .blockA i o r => commandAfter (writeArg .a0 i ++ writeArg .a1 o) (.blockA r)
  | .blockB i o r => commandAfter (writeArg .a0 i ++ writeArg .a1 o) (.blockB r)
  | .encrypt i o n r => commandAfter (writeArg .a0 i ++ writeArg .a1 o ++ writeArg .a2 n) (.encrypt r)
  | .decrypt i o n r => commandAfter (writeArg .a0 i ++ writeArg .a1 o ++ writeArg .a2 n) (.encrypt r)
  | .chacha20 i o n => commandAfter (writeArg .a0 i ++ writeArg .a1 o ++ writeArg .a2 n) (.encrypt 20)

end Sys2Proof.Machine
end

