-- ==== Sys2Proof/Machine/Lanes.lean ====
section
/-! DEFINITION. The lane organisation of the SIMD backends (42_block.md R146 to R148): informative, "no rule of the model
depends on them". Obligations say that they compute the round core. -/

namespace Sys2Proof.Machine

/-- A 32-bit lane vector of n lanes. -/
abbrev Lanes (n : Nat) := Vector Word n

/-- The four row vectors of a working copy, n lanes each. -/
structure LaneRows (n : Nat) where
  v0 : Lanes n
  v1 : Lanes n
  v2 : Lanes n
  v3 : Lanes n
  deriving DecidableEq, Repr

/-- The quarter-round on each lane. -/
def laneQr {n : Nat} (x : LaneRows n) : LaneRows n where
  v0 := Vector.ofFn fun j => (qr x.v0[j] x.v1[j] x.v2[j] x.v3[j]).1
  v1 := Vector.ofFn fun j => (qr x.v0[j] x.v1[j] x.v2[j] x.v3[j]).2.1
  v2 := Vector.ofFn fun j => (qr x.v0[j] x.v1[j] x.v2[j] x.v3[j]).2.2.1
  v3 := Vector.ofFn fun j => (qr x.v0[j] x.v1[j] x.v2[j] x.v3[j]).2.2.2

/-- R146: `rotlanes(v, n)[j] = v[(j + n) mod 4]`. -/
def rotLanes (v : Lanes 4) (n : Nat) : Lanes 4 :=
  Vector.ofFn fun j => v[(j.val + n) % 4]'(Nat.mod_lt _ (by decide))

/-- R146: the working copy as four row vectors. -/
def toRows (x : StateWords) : LaneRows 4 where
  v0 := #v[x[0], x[1], x[2], x[3]]
  v1 := #v[x[4], x[5], x[6], x[7]]
  v2 := #v[x[8], x[9], x[10], x[11]]
  v3 := #v[x[12], x[13], x[14], x[15]]

/-- R146: a double-round by lanes: lane-wise QR, lanes rotated by 1, 2, 3, lane-wise QR, lanes rotated back. -/
def laneDoubleRound (x : LaneRows 4) : LaneRows 4 :=
  let y := laneQr x
  let z := laneQr { y with v1 := rotLanes y.v1 1, v2 := rotLanes y.v2 2, v3 := rotLanes y.v3 3 }
  { z with v1 := rotLanes z.v1 3, v2 := rotLanes z.v2 2, v3 := rotLanes z.v3 1 }

/-- The low and the high 128-bit half of a 256-bit register. -/
def wideJoin (lo hi : Lanes 4) : Lanes 8 :=
  #v[lo[0], lo[1], lo[2], lo[3], hi[0], hi[1], hi[2], hi[3]]

/-- R147: each 256-bit register holds the same row of two States. -/
def wideRows (x y : LaneRows 4) : LaneRows 8 where
  v0 := wideJoin x.v0 y.v0
  v1 := wideJoin x.v1 y.v1
  v2 := wideJoin x.v2 y.v2
  v3 := wideJoin x.v3 y.v3

/-- The lanes of each 128-bit half rotated left by n. -/
def rotHalves (v : Lanes 8) (n : Nat) : Lanes 8 :=
  wideJoin (rotLanes #v[v[0], v[1], v[2], v[3]] n) (rotLanes #v[v[4], v[5], v[6], v[7]] n)

/-- R147: a double-round on both halves at once, as R146 does it. -/
def wideDoubleRound (x : LaneRows 8) : LaneRows 8 :=
  let y := laneQr x
  let z := laneQr { y with v1 := rotHalves y.v1 1, v2 := rotHalves y.v2 2, v3 := rotHalves y.v3 3 }
  { z with v1 := rotHalves z.v1 3, v2 := rotHalves z.v2 2, v3 := rotHalves z.v3 1 }

/-- The rows added lane by lane, modulo 2^32 (the feed-forward of R108, done by rows). -/
def laneAdd {n : Nat} (x y : LaneRows n) : LaneRows n where
  v0 := Vector.ofFn fun j => x.v0[j] + y.v0[j]
  v1 := Vector.ofFn fun j => x.v1[j] + y.v1[j]
  v2 := Vector.ofFn fun j => x.v2[j] + y.v2[j]
  v3 := Vector.ofFn fun j => x.v3[j] + y.v3[j]

/-- The 16 words of four row vectors (R146). -/
def laneWords (x : LaneRows 4) : StateWords :=
  #v[x.v0[0], x.v0[1], x.v0[2], x.v0[3], x.v1[0], x.v1[1], x.v1[2], x.v1[3],
     x.v2[0], x.v2[1], x.v2[2], x.v2[3], x.v3[0], x.v3[1], x.v3[2], x.v3[3]]

/-- The rows in the low 128-bit halves: half 0 of R147. -/
def lowRows (x : LaneRows 8) : LaneRows 4 where
  v0 := #v[x.v0[0], x.v0[1], x.v0[2], x.v0[3]]
  v1 := #v[x.v1[0], x.v1[1], x.v1[2], x.v1[3]]
  v2 := #v[x.v2[0], x.v2[1], x.v2[2], x.v2[3]]
  v3 := #v[x.v3[0], x.v3[1], x.v3[2], x.v3[3]]

/-- The rows in the high 128-bit halves: half 1 of R147. -/
def highRows (x : LaneRows 8) : LaneRows 4 where
  v0 := #v[x.v0[4], x.v0[5], x.v0[6], x.v0[7]]
  v1 := #v[x.v1[4], x.v1[5], x.v1[6], x.v1[7]]
  v2 := #v[x.v2[4], x.v2[5], x.v2[6], x.v2[7]]
  v3 := #v[x.v3[4], x.v3[5], x.v3[6], x.v3[7]]

/-- R147: the 128 keystream bytes of two States held in the halves: r/2 wide double-rounds, the feed-forward, and "block h
at bytes `64h .. 64h+63`". -/
def wideBlocks (S0 S1 : StateWords) (r : Nat) : List Byte :=
  let start := wideRows (toRows S0) (toRows S1)
  let y := laneAdd (Nat.iterate wideDoubleRound (r / 2) start) start
  serialize (laneWords (lowRows y)) ++ serialize (laneWords (highRows y))

/-- R148: `rotl(x, 16)` as a byte shuffle of `(b0, b1, b2, b3)` to `(b2, b3, b0, b1)`. -/
def shuffle16 (x : Word) : Word :=
  le32 (x.extractLsb' 16 8) (x.extractLsb' 24 8) (x.extractLsb' 0 8) (x.extractLsb' 8 8)

/-- R148: `rotl(x, 8)` as a byte shuffle of `(b0, b1, b2, b3)` to `(b3, b0, b1, b2)`. -/
def shuffle8 (x : Word) : Word :=
  le32 (x.extractLsb' 24 8) (x.extractLsb' 0 8) (x.extractLsb' 8 8) (x.extractLsb' 16 8)

end Sys2Proof.Machine
end

