-- ==== Sys2Proof/Safety.lean ====
section
/-! DEFINITION. The terms the claims use: a safe run, what makes a buffer admitted, the causes of the faults as the table
of 60_exceptions.md rule R200 words them, the invariant every step keeps, and the runs that claims compare. -/

namespace Sys2Proof.Machine

/-- No command has faulted since reset: "a model takes FAULT.FIRST = 0 as the premise that no fault occurred" (R204). -/
def Safe (s : State) : Prop := s.first = .ok

/-! ### Buffers -/

/-- `[base, base + len)` stays inside `[0, 2^ADDR_W)` (R67). -/
def InSpace (c : Config) (base len : Nat) : Prop := base < 2 ^ c.addrW ∧ base + len ≤ 2 ^ c.addrW

/-- `MemOK` holds of every byte of `[base, base + len)` (R69). -/
def Backed (c : Config) (base len : Nat) : Prop := ∀ a, base ≤ a → a < base + len → memOK c a = true

/-- The command may access `[base, base + len)`. -/
def Reachable (c : Config) (base len : Nat) : Prop := InSpace c base len ∧ Backed c base len

/-- The input range `[i, i + len)` and the output range `[o, o + len)` are equal, disjoint or empty (R68). -/
def NoClash (i o len : Nat) : Prop := i = o ∨ o + len ≤ i ∨ i + len ≤ o ∨ len = 0

/-- The buffers A0 and A1 of a block producer of `len` bytes are admitted (R67 to R69). -/
def BuffersOk (s : State) (len : Nat) : Prop :=
  Reachable s.cfg s.a0.toNat len ∧ Reachable s.cfg s.a1.toNat len ∧ NoClash s.a0.toNat s.a1.toNat len

/-- Byte j of the keystream from the State's counter on: byte `j mod 64` of block `j / 64` (R112). -/
def keyByte (l : Layout) (S : StateWords) (r j : Nat) : Byte :=
  (block (withCtr l S ((ctr l S + j / 64) % 2 ^ l.cw)) r).getD (j % 64) 0

/-- `m` is `m0` with the `len` bytes at `o` replaced by those at `i` XOR `ks` (R70), every other byte as before (R66). -/
def XorInto (m0 m : Memory) (i o len : Nat) (ks : Nat → Byte) : Prop :=
  (∀ j < len, m.read (o + j) = m0.read (i + j) ^^^ ks j) ∧
  ∀ a, a < o ∨ o + len ≤ a → m.read a = m0.read a

/-- The little-endian word number i of the byte string at `base` (R22, R23). -/
def memWord (m : Memory) (base i : Nat) : Word :=
  le32 (m.read (base + 4 * i)) (m.read (base + 4 * i + 1)) (m.read (base + 4 * i + 2)) (m.read (base + 4 * i + 3))

/-! ### The causes of the faults (R200) -/

/-- The round count of a format R command. -/
def Instr.rounds? : Instr → Option Nat
  | .setupRfc => none
  | .setupExt _ => none
  | .blockS r => some r
  | .blockA r => some r
  | .blockB r => some r
  | .encrypt r => some r

/-- The blocks a block command produces (R141, R143, R144). -/
def stride? : Instr → State → Option Nat
  | .blockS _, _ => some 1
  | .blockA _, s => some s.cfg.strideA
  | .blockB _, s => some s.cfg.strideB
  | _, _ => none

/-- The bytes a block producer streams (R66). -/
def streamLen : Instr → State → Nat
  | .blockS _, _ => 64
  | .blockA _, s => 64 * s.cfg.strideA
  | .blockB _, s => 64 * s.cfg.strideB
  | .encrypt _, s => s.a2.toNat
  | _, _ => 0

/-- The address is one of a footprint's bytes (R66). -/
def InFootprint (ps : List Span) (a : Nat) : Prop := ∃ p ∈ ps, p.base ≤ a ∧ a < p.base + p.len

/-- The column "cause" of rule R200 for a decoded command (codes 3 to 9). -/
def Cause (i : Instr) (s : State) : FaultCode → Prop
  | .illegalOpcode => False
  | .reservedBits => False
  | .badKeybits => i = .setupExt true ∧ s.cfg.key128 = none
  | .badRounds => ∃ r, Instr.rounds? i = some r ∧ r % 2 = 1
  | .unavailable => stride? i s = some 0
  | .notInit => (∃ r, Instr.rounds? i = some r) ∧ s.valid = false
  | .range => ∃ p ∈ reads i s ++ writes i s, ¬ InSpace s.cfg p.base p.len
  | .overlap => ∃ p ∈ reads i s, ∃ q ∈ writes i s, ¬ NoClash p.base q.base p.len
  | .bus => ∃ a, InFootprint (reads i s ++ writes i s) a ∧ memOK s.cfg a = false

/-! ### The invariant -/

/-- Row r of the State matrix (R7). -/
def row (S : StateWords) (r : Fin 4) : Row :=
  #v[S[4 * r.val], S[4 * r.val + 1], S[4 * r.val + 2], S[4 * r.val + 3]]

/-- A fault code that this configuration can report (R200: BAD_KEYBITS only while `HAS_KEY128` = 0, UNAVAILABLE only with a
stride of 0). -/
def CodePossible (c : Config) : Code → Prop
  | .fault .badKeybits => c.key128 = none
  | .fault .unavailable => c.strideA = 0 ∨ c.strideB = 0
  | _ => True

/-- What every step keeps. -/
structure Inv (s : State) : Prop where
  /-- Buffer memory is in its canonical form. -/
  memCanonical : s.mem.wf
  /-- Only bytes that exist and are backed were ever written (R67, R69, R71). -/
  memBacked : ∀ c ∈ s.mem, c.1 < 2 ^ s.cfg.addrW ∧ memOK s.cfg c.1 = true
  /-- While no fault is recorded, the last command completed (R203, R204). -/
  errCovered : s.first = .ok → s.err = .ok
  /-- Once set up, row 0 is SIGMA, or the 128-bit constants over a doubled key in the EXT layout (R21, R125, R126). -/
  setUpRows : s.valid = true → row s.S 0 = sigma ∨
    (s.layout = .ext ∧ s.cfg.key128 = some (row s.S 0) ∧ row s.S 2 = row s.S 1)
  /-- Until set up, the State is the reset State (R26, R39): no key is in the block. -/
  unsetState : s.valid = false → s.S = Vector.replicate 16 0 ∧ s.layout = .rfc
  /-- The recorded codes are ones this configuration can report (R200). -/
  codesPossible : CodePossible s.cfg s.err ∧ CodePossible s.cfg s.first

/-! ### Runs that claims compare -/

/-- k BLOCK.S commands on consecutive 64-byte chunks (R142): the host advances A0 and A1 by 64 after each. -/
def scalarRun (r : Nat) : Nat → State → Host.Outcome State Fault Refusal
  | 0, s => .next s
  | k + 1, s =>
    match exec (.blockS r) s with
    | .next t => scalarRun r k { t with a0 := t.a0 + 64, a1 := t.a1 + 64 }
    | .fault f => .fault f
    | .refused f => .refused f

/-- The groupings of the column round, each listed as (a, b, c, d) (R104). -/
def columnGroups : List (Fin 16 × Fin 16 × Fin 16 × Fin 16) :=
  [(0, 4, 8, 12), (1, 5, 9, 13), (2, 6, 10, 14), (3, 7, 11, 15)]

/-- The groupings of the diagonal round, each listed as (a, b, c, d) (R105). -/
def diagonalGroups : List (Fin 16 × Fin 16 × Fin 16 × Fin 16) :=
  [(0, 5, 10, 15), (1, 6, 11, 12), (2, 7, 8, 13), (3, 4, 9, 14)]

/-- `QR_at` on each grouping of the list, in the list's order. -/
def qrOn (gs : List (Fin 16 × Fin 16 × Fin 16 × Fin 16)) (x : StateWords) : StateWords :=
  gs.foldl (fun x g => qrAt x g.1 g.2.1 g.2.2.1 g.2.2.2) x

end Sys2Proof.Machine
end

