-- ==== Sys2Proof/Certificates/Slice0/Obligations.lean ====
section
/-! DEFINITION. The statements for the provers: what the numbered rules of spec/ say the machine does. Each docstring
names the rules; OBLIGATIONS.json lists them. -/

open Sys2Proof Sys2Proof.Machine

/-! ### The command word -/

/-- R82 to R84, R87: decoding the encoding of any well-formed command gives it back, at every value of every field. -/
def Obligations.DecodeOfEncodeIsTheCommand : Prop :=
  ∀ i : Instr, i.wellFormed = true → decode (encode i) = .ok i

/-- R88 ("every word has exactly one meaning", D3): a word that decodes is the encoding of the command it decodes to, and
that command is well formed. -/
def Obligations.EncodeOfDecodeIsTheWord : Prop :=
  ∀ (v : Word) (i : Instr), decode v = .ok i → i.wellFormed = true ∧ encode i = v

/-- R88, R89: the decoder on all words, said on the word's numeric fields; a rejected word faults when it is issued. -/
def Obligations.DecodeIsTotalOnCommandWords : Prop :=
  ∀ v : Word,
    (v.toNat % 256 ∉ [0x01, 0x02, 0x10, 0x11, 0x12, 0x20] → decode v = .error .illegalOpcode) ∧
    (v.toNat % 256 = 0x01 → decode v =
      if v.toNat / 2 ^ 8 = 0 then .ok .setupRfc else .error .reservedBits) ∧
    (v.toNat % 256 = 0x02 → decode v =
      if v.toNat / 2 ^ 17 = 0 ∧ v.toNat / 2 ^ 8 % 256 = 0
      then .ok (.setupExt (v.toNat / 2 ^ 16 % 2 == 1)) else .error .reservedBits) ∧
    (v.toNat % 256 = 0x10 → decode v =
      if v.toNat / 2 ^ 16 = 0 then .ok (.blockS (v.toNat / 2 ^ 8 % 256)) else .error .reservedBits) ∧
    (v.toNat % 256 = 0x11 → decode v =
      if v.toNat / 2 ^ 16 = 0 then .ok (.blockA (v.toNat / 2 ^ 8 % 256)) else .error .reservedBits) ∧
    (v.toNat % 256 = 0x12 → decode v =
      if v.toNat / 2 ^ 16 = 0 then .ok (.blockB (v.toNat / 2 ^ 8 % 256)) else .error .reservedBits) ∧
    (v.toNat % 256 = 0x20 → decode v =
      if v.toNat / 2 ^ 16 = 0 then .ok (.encrypt (v.toNat / 2 ^ 8 % 256)) else .error .reservedBits) ∧
    (∀ s, decode v = .error .illegalOpcode → issue v s = .next { s with
      err := .fault .illegalOpcode, first := if s.first = .ok then .fault .illegalOpcode else s.first }) ∧
    (∀ s, decode v = .error .reservedBits → issue v s = .next { s with
      err := .fault .reservedBits, first := if s.first = .ok then .fault .reservedBits else s.first })

/-- spec/opcode_table.json: a word decodes exactly when it matches some row's mask and match, and then it decodes to a
command of that row. -/
def Obligations.DecodeAgreesWithTheOpcodeTable : Prop :=
  (∀ (v : Word) (i : Instr), decode v = .ok i → v &&& i.rowMask = i.rowMatch) ∧
  (∀ (v : Word) (j : Instr), v &&& j.rowMask = j.rowMatch →
    ∃ i, decode v = .ok i ∧ i.rowMatch = j.rowMatch)

/-- Words written out from R82 to R84 and R91 (sanity). -/
def Obligations.SpelledOutWordsDecode : Prop :=
  decode 0b00000000000000000000000000000001 = .ok .setupRfc ∧
  decode 0b00000000000000010000000000000010 = .ok (.setupExt true) ∧
  decode 0b00000000000000000001010000010000 = .ok (.blockS 20) ∧
  decode 0b00000000000000000001001100010001 = .ok (.blockA 19) ∧
  decode 0b00000000000000000001010000010010 = .ok (.blockB 20) ∧
  decode 0b00000000000000000001010000100000 = .ok (.encrypt 20) ∧
  decode 0b00000000000000000000000100000001 = .error .reservedBits ∧
  decode 0b00000000000000000000000000000011 = .error .illegalOpcode

/-- R91: the assembler gives each command its word, accepts an odd round count, and rejects a count above 255; so does a
command line with the count in decimal or in hexadecimal with `0x`, and no other line has a word (that one space separates
mnemonic and operand is the model's choice, log 13). -/
def Obligations.AssemblerFollowsTheSyntaxTable : Prop :=
  assemble .setupRfc = some 0x00000001 ∧
  assemble (.setupExt false) = some 0x00000002 ∧
  assemble (.setupExt true) = some 0x00010002 ∧
  ∀ r : Nat,
    (r ≤ 255 →
      assemble (.blockS r) = some (BitVec.ofNat 32 (0x10 + r * 0x100)) ∧
      assemble (.blockA r) = some (BitVec.ofNat 32 (0x11 + r * 0x100)) ∧
      assemble (.blockB r) = some (BitVec.ofNat 32 (0x12 + r * 0x100)) ∧
      assemble (.encrypt r) = some (BitVec.ofNat 32 (0x20 + r * 0x100))) ∧
    (255 < r →
      assemble (.blockS r) = none ∧ assemble (.blockA r) = none ∧
      assemble (.blockB r) = none ∧ assemble (.encrypt r) = none) ∧
    assembleLine "SETUP.RFC".toList = some 0x00000001 ∧
    assembleLine "SETUP.EXT.K256".toList = some 0x00000002 ∧
    assembleLine "SETUP.EXT.K128".toList = some 0x00010002 ∧
    (∀ count ∈ [Nat.toDigits 10 r, '0' :: 'x' :: Nat.toDigits 16 r],
      (r ≤ 255 →
        assembleLine ("BLOCK.S ".toList ++ count) = some (BitVec.ofNat 32 (0x10 + r * 0x100)) ∧
        assembleLine ("BLOCK.A ".toList ++ count) = some (BitVec.ofNat 32 (0x11 + r * 0x100)) ∧
        assembleLine ("BLOCK.B ".toList ++ count) = some (BitVec.ofNat 32 (0x12 + r * 0x100)) ∧
        assembleLine ("ENCRYPT ".toList ++ count) = some (BitVec.ofNat 32 (0x20 + r * 0x100))) ∧
      (255 < r →
        assembleLine ("BLOCK.S ".toList ++ count) = none ∧ assembleLine ("BLOCK.A ".toList ++ count) = none ∧
        assembleLine ("BLOCK.B ".toList ++ count) = none ∧ assembleLine ("ENCRYPT ".toList ++ count) = none)) ∧
    ∀ (line : List Char) (v : Word), assembleLine line = some v →
      line ∈ ["SETUP.RFC".toList, "SETUP.EXT.K256".toList, "SETUP.EXT.K128".toList] ∨
      ∃ count, ((count ≠ [] ∧ ∀ c ∈ count, c.isDigit) ∨
          ∃ hex, count = '0' :: 'x' :: hex ∧ hex ≠ [] ∧ ∀ c ∈ hex, c.isDigit ∨ c ∈ "abcdefABCDEF".toList) ∧
        line ∈ ["BLOCK.S ".toList ++ count, "BLOCK.A ".toList ++ count, "BLOCK.B ".toList ++ count, "ENCRYPT ".toList ++ count]

/-! ### The step -/

/-- R29, R11: a step at a CMD write whose word decodes is that command's meaning, with the write taken off the host's
actions and nothing else around it (log 1). -/
def Obligations.StepRunsTheDecodedCommand : Prop :=
  ∀ (s : State) (rest : List HostOp) (v : Word) (i : Instr),
    s.host = .wr 0x000 v :: rest → decode v = .ok i →
    step s = exec i { s with host := rest }

/-- R5, R221 (the model's choice for an empty list, log 2): with no action of the host pending, the block waits. -/
def Obligations.StepWithNoHostActionWaits : Prop :=
  ∀ s : State, s.host = [] → step s = .next s

/-- R11, R202, R230: every command, well formed or not in its operands, ends in a next state. -/
def Obligations.EveryCommandEndsInANextState : Prop :=
  ∀ (i : Instr) (s : State), ∃ t, exec i s = .next t

/-! ### The round core -/

/-- R102: the quarter-round's four lines, each word written out, with the corner cases. -/
def Obligations.QuarterRoundFollowsItsFourLines : Prop :=
  (∀ a b c d a1 d1 c1 b1 a2 d2 c2 b2 : Word,
    a1 = a + b → d1 = (d ^^^ a1).rotateLeft 16 → c1 = c + d1 → b1 = (b ^^^ c1).rotateLeft 12 →
    a2 = a1 + b1 → d2 = (d1 ^^^ a2).rotateLeft 8 → c2 = c1 + d2 → b2 = (b1 ^^^ c2).rotateLeft 7 →
    qr a b c d = (a2, b2, c2, d2)) ∧
  qr 0 0 0 0 = (0, 0, 0, 0) ∧
  qr 0xffffffff 0xffffffff 0xffffffff 0xffffffff = (0xf0000ffd, 0x88790878, 0x0110fdef, 0x010ffdf0) ∧
  qr 0x11111111 0x01020304 0x9b8d6f43 0x01234567 = (0xea2a92f4, 0xcb1cf8ce, 0x4581472e, 0x5881c4bb)

/-- R103: for four distinct indices, the four words become the quarter-round's results and the other twelve stay. -/
def Obligations.QuarterRoundOnTheStateChangesFourWords : Prop :=
  ∀ (x : StateWords) (i j k l : Fin 16), [i, j, k, l].Nodup →
    ((qrAt x i j k l)[i], (qrAt x i j k l)[j], (qrAt x i j k l)[k], (qrAt x i j k l)[l]) =
      qr x[i] x[j] x[k] x[l] ∧
    ∀ n : Fin 16, n ∉ [i, j, k, l] → (qrAt x i j k l)[n] = x[n]

/-- R104, R105: the rounds apply QR_at to their groupings, and the order of the groupings does not change the result. -/
def Obligations.RoundsDoNotDependOnTheGroupingOrder : Prop :=
  ∀ x : StateWords,
    (∀ gs, gs.Perm columnGroups → columnRound x = qrOn gs x) ∧
    (∀ gs, gs.Perm diagonalGroups → diagonalRound x = qrOn gs x)

/-- R108 corner cases, R106: the block of the all-zero State is 64 zero bytes at every round count; at an odd count, where
R107 gives `permute` no value, this is the model's choice of r / 2 rounded down (log 16). -/
def Obligations.ZeroStateGivesZeroBlock : Prop :=
  ∀ r : Nat, block (Vector.replicate 16 0) r = List.replicate 64 0

/-- R107, R108: a block has 64 bytes; byte 4i + m is bits 8m+7..8m of `permute(S, r)[i] +32 S[i]`; each two rounds more are
one double-round more; the first bytes of the RFC 7539 2.3.2 block. At an odd r, where R107 gives `permute` no value, the
clauses about `permute` are the model's choice of r / 2 rounded down (log 16). -/
def Obligations.BlockFunctionSerializesTheFeedForward : Prop :=
  (∀ (S : StateWords) (r : Nat), (block S r).length = 64 ∧
    ∀ (i : Fin 16) (m : Fin 4), (block S r)[4 * i.val + m.val]? =
      some (((permute S r)[i] + S[i]).extractLsb' (8 * m.val) 8)) ∧
  (∀ S : StateWords, permute S 0 = S) ∧
  (∀ (S : StateWords) (r : Nat), permute S (r + 2) = doubleRound (permute S r)) ∧
  (block #v[0x61707865, 0x3320646e, 0x79622d32, 0x6b206574, 0x03020100, 0x07060504, 0x0b0a0908, 0x0f0e0d0c,
      0x13121110, 0x17161514, 0x1b1a1918, 0x1f1e1d1c, 0x00000001, 0x09000000, 0x4a000000, 0x00000000] 20).take 16 =
    [0x10, 0xf1, 0xe7, 0xe4, 0xd1, 0x3b, 0x59, 0x15, 0x50, 0x0f, 0xdd, 0x1f, 0xa3, 0x20, 0x71, 0xc4]

/-- R109, R110: the counter's value and width in each layout, and that placing a counter value changes no other word. -/
def Obligations.CounterPlacementTouchesOnlyTheCounterWords : Prop :=
  ∀ S : StateWords,
    ctr .rfc S = S[12].toNat ∧ ctr .ext S = S[13].toNat * 2 ^ 32 + S[12].toNat ∧
    (∀ v < 2 ^ 32, ctr .rfc (withCtr .rfc S v) = v ∧ (withCtr .rfc S v)[12].toNat = v ∧
      ∀ i : Fin 16, i ≠ 12 → (withCtr .rfc S v)[i] = S[i]) ∧
    (∀ v < 2 ^ 64, ctr .ext (withCtr .ext S v) = v ∧
      (withCtr .ext S v)[12].toNat = v % 2 ^ 32 ∧ (withCtr .ext S v)[13].toNat = v / 2 ^ 32 ∧
      ∀ i : Fin 16, i ≠ 12 → i ≠ 13 → (withCtr .ext S v)[i] = S[i])

/-- R111: the counter advances modulo 2^32 under RFC, with no carry into `S[13]`, and modulo 2^64 under EXT; advances add
up. -/
def Obligations.CounterAdvanceWrapsPerLayout : Prop :=
  ∀ S : StateWords,
    (∀ k, ctr .rfc (advance .rfc S k) = (ctr .rfc S + k) % 2 ^ 32 ∧ (advance .rfc S k)[13] = S[13]) ∧
    (∀ k, ctr .ext (advance .ext S k) = (ctr .ext S + k) % 2 ^ 64) ∧
    (S[12] = 0xffffffff → (advance .rfc S 1)[12] = 0) ∧
    (S[12] = 0xffffffff → S[13] = 0 → (advance .ext S 1)[12] = 0 ∧ (advance .ext S 1)[13] = 1) ∧
    (∀ l a b, advance l (advance l S a) b = advance l S (a + b)) ∧ (∀ l, advance l S 0 = S)

/-- R112: the keystream has n bytes, byte j is byte `j mod 64` of the block at counter `(c + j/64) mod 2^CW`, a shorter
keystream is a prefix, and under RFC it repeats after 2^32 blocks. -/
def Obligations.KeystreamIsTheCounterBlocksInOrder : Prop :=
  ∀ (l : Layout) (S : StateWords) (r n : Nat),
    (keystream l S r n).length = n ∧
    (∀ j < n, (keystream l S r n)[j]? = some (keyByte l S r j)) ∧
    (∀ k ≤ n, keystream l S r k = (keystream l S r n).take k) ∧
    (∀ j, keyByte .rfc S r (j + 64 * 2 ^ 32) = keyByte .rfc S r j)

/-! ### The lanes of the SIMD backends -/

/-- R146: lane-wise QR with the lanes of rows 1, 2, 3 rotated by 1, 2, 3 and back is the double-round; between the two
lane-wise QRs the lanes hold the diagonal groupings. -/
def Obligations.IntraBlockLanesComputeTheDoubleRound : Prop :=
  ∀ x : StateWords,
    laneQr (toRows x) = toRows (columnRound x) ∧
    laneDoubleRound (toRows x) = toRows (doubleRound x)

/-- R147: two States in the halves of 256-bit registers, r/2 wide double-rounds, are the two permutations side by side; with
the feed-forward and the halves' rows serialized, half 0 first, they are the two blocks in counter order. At an odd r, where
R107 gives `permute` no value, both sides are the model's choice of r / 2 rounded down (log 16). -/
def Obligations.InterBlockLanesComputeTwoBlocks : Prop :=
  ∀ (l : Layout) (S : StateWords) (r : Nat),
    Nat.iterate wideDoubleRound (r / 2)
      (wideRows (toRows (withCtr l S (ctr l S))) (toRows (withCtr l S ((ctr l S + 1) % 2 ^ l.cw)))) =
    wideRows (toRows (permute (withCtr l S (ctr l S)) r))
      (toRows (permute (withCtr l S ((ctr l S + 1) % 2 ^ l.cw)) r)) ∧
    wideBlocks (withCtr l S (ctr l S)) (withCtr l S ((ctr l S + 1) % 2 ^ l.cw)) r =
      block (withCtr l S (ctr l S)) r ++ block (withCtr l S ((ctr l S + 1) % 2 ^ l.cw)) r

/-- R148, R100: rotations by 16 and by 8 move whole bytes; those by 12 and 7 are two shifts and an OR. -/
def Obligations.ByteRotationsAreShuffles : Prop :=
  ∀ (x : Word) (b0 b1 b2 b3 : Byte), x = le32 b0 b1 b2 b3 →
    rotl x 16 = le32 b2 b3 b0 b1 ∧ rotl x 8 = le32 b3 b0 b1 b2 ∧
    rotl x 16 = shuffle16 x ∧ rotl x 8 = shuffle8 x ∧
    rotl x 12 = (x <<< 12) ||| (x >>> 20) ∧ rotl x 7 = (x <<< 7) ||| (x >>> 25)

/-! ### SETUP -/

/-- R121, R21, R22, R23: SETUP.RFC with its 44 bytes reachable completes; SIGMA, the eight key words, the counter A2[31:0]
and the three nonce words are loaded, LAYOUT 0, VALID 1, ERR 0, and nothing else changes. -/
def Obligations.SetupRfcLoadsKeyCounterAndNonce : Prop :=
  ∀ s : State, Reachable s.cfg s.a0.toNat 32 → Reachable s.cfg s.a1.toNat 12 →
    exec .setupRfc s = .next { s with
      S := #v[0x61707865, 0x3320646e, 0x79622d32, 0x6b206574,
        memWord s.mem s.a0.toNat 0, memWord s.mem s.a0.toNat 1, memWord s.mem s.a0.toNat 2, memWord s.mem s.a0.toNat 3,
        memWord s.mem s.a0.toNat 4, memWord s.mem s.a0.toNat 5, memWord s.mem s.a0.toNat 6, memWord s.mem s.a0.toNat 7,
        BitVec.ofNat 32 (s.a2.toNat % 2 ^ 32),
        memWord s.mem s.a1.toNat 0, memWord s.mem s.a1.toNat 1, memWord s.mem s.a1.toNat 2]
      layout := .rfc, valid := true, err := .ok }

/-- R123, R124, R127, R128: SETUP.EXT with a 256-bit key, its 32 bytes reachable, completes whatever `HAS_KEY128` is: SIGMA,
the eight key words, counter 0, the nonce's halves in the order `EXT_NONCE_ORDER`, LAYOUT 1, VALID 1, ERR 0. -/
def Obligations.SetupExtLoadsA256BitKey : Prop :=
  ∀ s : State, Reachable s.cfg s.a0.toNat 32 →
    exec (.setupExt false) s = .next { s with
      S := #v[0x61707865, 0x3320646e, 0x79622d32, 0x6b206574,
        memWord s.mem s.a0.toNat 0, memWord s.mem s.a0.toNat 1, memWord s.mem s.a0.toNat 2, memWord s.mem s.a0.toNat 3,
        memWord s.mem s.a0.toNat 4, memWord s.mem s.a0.toNat 5, memWord s.mem s.a0.toNat 6, memWord s.mem s.a0.toNat 7,
        0, 0,
        if s.cfg.nonceOrder = .loFirst then BitVec.ofNat 32 (s.a1.toNat % 2 ^ 32) else BitVec.ofNat 32 (s.a1.toNat / 2 ^ 32),
        if s.cfg.nonceOrder = .loFirst then BitVec.ofNat 32 (s.a1.toNat / 2 ^ 32) else BitVec.ofNat 32 (s.a1.toNat % 2 ^ 32)]
      layout := .ext, valid := true, err := .ok }

/-- R123, R125, R126: SETUP.EXT with a 128-bit key when `HAS_KEY128` = 1, its 16 bytes reachable, completes: row 0 is
`K128_CONST`, the four key words fill rows 1 and 2 both. -/
def Obligations.SetupExtDoublesA128BitKey : Prop :=
  ∀ (s : State) (k : Row), s.cfg.key128 = some k → Reachable s.cfg s.a0.toNat 16 →
    exec (.setupExt true) s = .next { s with
      S := #v[k[0], k[1], k[2], k[3],
        memWord s.mem s.a0.toNat 0, memWord s.mem s.a0.toNat 1, memWord s.mem s.a0.toNat 2, memWord s.mem s.a0.toNat 3,
        memWord s.mem s.a0.toNat 0, memWord s.mem s.a0.toNat 1, memWord s.mem s.a0.toNat 2, memWord s.mem s.a0.toNat 3,
        0, 0,
        if s.cfg.nonceOrder = .loFirst then BitVec.ofNat 32 (s.a1.toNat % 2 ^ 32) else BitVec.ofNat 32 (s.a1.toNat / 2 ^ 32),
        if s.cfg.nonceOrder = .loFirst then BitVec.ofNat 32 (s.a1.toNat / 2 ^ 32) else BitVec.ofNat 32 (s.a1.toNat % 2 ^ 32)]
      layout := .ext, valid := true, err := .ok }

/-- R120: a SETUP does not read the State, VALID or LAYOUT: on a reachable key (and nonce) it loads the same State words
whatever they held, and one that faults leaves all three. -/
def Obligations.SetupDoesNotReadTheOldState : Prop :=
  ∀ (i : Instr) (s : State) (S' : StateWords) (v' : Bool) (l' : Layout) (t t' : State),
    (i = .setupRfc ∨ ∃ k, i = .setupExt k) →
    exec i s = .next t → exec i { s with S := S', valid := v', layout := l' } = .next t' →
    t'.err = t.err ∧ t'.mem = t.mem ∧ t.mem = s.mem ∧
    (t.err = .ok → t'.S = t.S ∧ t'.valid = t.valid ∧ t'.layout = t.layout) ∧
    (t.err ≠ .ok → t.S = s.S ∧ t.valid = s.valid ∧ t.layout = s.layout)

/-! ### Block producers and the stream driver -/

/-- R140, R141, R143, R144, R33: with a State set up, an even round count, a nonzero stride k and admitted buffers, a block
command completes: 64k output bytes are input XOR keystream, the counter advances by k, ERR is 0, nothing else changes. -/
def Obligations.BlockCommandsXorTheKeystream : Prop :=
  ∀ (i : Instr) (r k : Nat) (s : State),
    ((i = .blockS r ∧ k = 1) ∨ (i = .blockA r ∧ k = s.cfg.strideA) ∨ (i = .blockB r ∧ k = s.cfg.strideB)) →
    s.mem.wf → r % 2 = 0 → k ≠ 0 → s.valid = true → BuffersOk s (64 * k) →
    ∃ m : Memory, exec i s = .next { s with S := advance s.layout s.S k, err := .ok, mem := m } ∧ m.wf ∧
      XorInto s.mem m s.a0.toNat s.a1.toNat (64 * k) (keyByte s.layout s.S r)

/-- R161, R163, R164: with a State set up, an even round count and admitted buffers, ENCRYPT of N = A2 bytes completes: N
output bytes are input XOR keystream, the counter advances by ceil(N / 64), ERR is 0, nothing else changes. -/
def Obligations.EncryptXorsTheKeystream : Prop :=
  ∀ (r : Nat) (s : State), s.mem.wf → r % 2 = 0 → s.valid = true → BuffersOk s s.a2.toNat →
    ∃ m : Memory, exec (.encrypt r) s =
        .next { s with S := advance s.layout s.S ((s.a2.toNat + 63) / 64), err := .ok, mem := m } ∧ m.wf ∧
      XorInto s.mem m s.a0.toNat s.a1.toNat s.a2.toNat (keyByte s.layout s.S r)

/-- R164: after an ENCRYPT that completes, the counter is `(c + ceil(N/64)) mod 2^CW`. -/
def Obligations.EncryptAdvancesTheCounterByItsBlocks : Prop :=
  ∀ (r : Nat) (s t : State), exec (.encrypt r) s = .next t → t.err = .ok →
    t.layout = s.layout ∧
    (s.layout = .rfc → ctr .rfc t.S = (ctr .rfc s.S + (s.a2.toNat + 63) / 64) % 2 ^ 32) ∧
    (s.layout = .ext → ctr .ext t.S = (ctr .ext s.S + (s.a2.toNat + 63) / 64) % 2 ^ 64)

/-- R165: ENCRYPT of no bytes leaves memory and the counter, still faults on an odd count or with no State set up, can
fault with RANGE only by a base outside a space smaller than 2^64, never with OVERLAP or BUS, and otherwise sets ERR to 0. -/
def Obligations.EncryptOfNothingChangesNothing : Prop :=
  ∀ (r : Nat) (s t : State), s.a2 = 0 → exec (.encrypt r) s = .next t →
    t.mem = s.mem ∧ t.S = s.S ∧
    (r % 2 = 1 → t.err = .fault .badRounds) ∧
    (r % 2 = 0 → s.valid = false → t.err = .fault .notInit) ∧
    (r % 2 = 0 → s.valid = true → (2 ^ s.cfg.addrW ≤ s.a0.toNat ∨ 2 ^ s.cfg.addrW ≤ s.a1.toNat) →
      t.err = .fault .range) ∧
    (t.err = .fault .range → s.cfg.addrW < 64) ∧
    (r % 2 = 0 → s.valid = true → s.a0.toNat < 2 ^ s.cfg.addrW → s.a1.toNat < 2 ^ s.cfg.addrW → t = { s with err := .ok })

/-- R142, R145: k BLOCK.S commands on consecutive 64-byte chunks write the same memory and leave the same State as one
`BLOCKS(k, r)`: both write input XOR keystream and advance the counter by k. -/
def Obligations.BackendChoiceNeverChangesResults : Prop :=
  ∀ (k r : Nat) (s : State), s.mem.wf → s.cfg.wellFormed = true → r % 2 = 0 → k ≠ 0 → s.valid = true →
    BuffersOk s (64 * k) →
    ∃ t u : State, runBlocks k r s = .next t ∧ scalarRun r k s = .next u ∧
      t.err = .ok ∧ u.err = .ok ∧ u.mem = t.mem ∧ u.S = t.S ∧ t.S = advance s.layout s.S k ∧
      XorInto s.mem t.mem s.a0.toNat s.a1.toNat (64 * k) (keyByte s.layout s.S r)

/-- R162: the driver's schedule of chunks, at any stride, gives exactly ENCRYPT's result; in particular the schedule of
R162's own choice does. -/
def Obligations.EncryptScheduleIsNotObservable : Prop :=
  ∀ (r : Nat) (s : State), r % 2 = 0 → s.valid = true → BuffersOk s s.a2.toNat →
    (∀ stride : Nat, exec (.encrypt r) s =
      .next { runChunks r (scheduleChunks stride s.a2.toNat) 0 s with err := .ok }) ∧
    exec (.encrypt r) s = .next { encryptBySchedule r s with err := .ok }

/-- R70: a block producer that completes leaves output byte j = input byte j (as it stood before) XOR keystream byte j, and
the memory it leaves is the one that reading each input byte just before writing its output byte gives, in any order of the
positions. -/
def Obligations.BytePositionsMayRunInAnyOrder : Prop :=
  ∀ (i : Instr) (r : Nat) (s t : State) (order : List Nat), i ∈ [Instr.blockS r, .blockA r, .blockB r, .encrypt r] →
    s.mem.wf → exec i s = .next t → t.err = .ok → order.Perm (List.range (streamLen i s)) →
    xorInOrder s.a0.toNat s.a1.toNat (keystream s.layout s.S r (streamLen i s)) order s.mem = t.mem ∧
    ∀ j < streamLen i s, t.mem.read (s.a1.toNat + j) = s.mem.read (s.a0.toNat + j) ^^^ keyByte s.layout s.S r j

/-- R166: when N1 is a multiple of 64 or N2 = 0, ENCRYPT of N1 then of N2 bytes over consecutive buffers gives the bytes
and the counter of one ENCRYPT of N1 + N2 bytes; otherwise the second command starts at the next whole block. -/
def Obligations.SplitStreamsMeetAtWholeBlocks : Prop :=
  ∀ (r : Nat) (n1 n2 : DWord) (s t1 t2 : State),
    s.mem.wf → s.cfg.wellFormed = true → n1.toNat + n2.toNat < 2 ^ 64 →
    BuffersOk s (n1.toNat + n2.toNat) →
    exec (.encrypt r) { s with a2 := n1 } = .next t1 → t1.err = .ok →
    exec (.encrypt r) { t1 with a0 := s.a0 + n1, a1 := s.a1 + n1, a2 := n2 } = .next t2 → t2.err = .ok →
    (n1.toNat % 64 = 0 ∨ n2 = 0 → ∃ t, exec (.encrypt r) { s with a2 := n1 + n2 } = .next t ∧ t.err = .ok ∧
      t2.mem = t.mem ∧ t2.S = t.S) ∧
    ∀ j < n2.toNat, t2.mem.read (s.a1.toNat + n1.toNat + j) =
      s.mem.read (s.a0.toNat + n1.toNat + j) ^^^ keyByte s.layout s.S r (64 * ((n1.toNat + 63) / 64) + j)

/-- R167: an ENCRYPT advances the counter; re-running it on its own output from the same State with the same round count,
into any admitted output buffer (in place among them), gives back the input. -/
def Obligations.EncryptIsItsOwnInverse : Prop :=
  ∀ (r : Nat) (s t : State), s.mem.wf → exec (.encrypt r) s = .next t → t.err = .ok →
    t.S = advance s.layout s.S ((s.a2.toNat + 63) / 64) ∧
    (∀ (o : DWord) (u : State), exec (.encrypt r) { t with S := s.S, a0 := s.a1, a1 := o } = .next u → u.err = .ok →
      ∀ j < s.a2.toNat, u.mem.read (o.toNat + j) = s.mem.read (s.a0.toNat + j)) ∧
    ∃ u, exec (.encrypt r) { t with S := s.S, a0 := s.a1 } = .next u ∧ u.err = .ok

/-- R168: ENCRYPT of N bytes writes the first N bytes that ENCRYPT of any N' ≥ N bytes from the same State writes, and the
counters left differ only when the block counts do. -/
def Obligations.ShorterEncryptIsAPrefix : Prop :=
  ∀ (r : Nat) (n n' : DWord) (s t t' : State), s.mem.wf → n.toNat ≤ n'.toNat →
    exec (.encrypt r) { s with a2 := n } = .next t → t.err = .ok →
    exec (.encrypt r) { s with a2 := n' } = .next t' → t'.err = .ok →
    (∀ j < n.toNat, t.mem.read (s.a1.toNat + j) = t'.mem.read (s.a1.toNat + j)) ∧
    (t.S ≠ t'.S → (n.toNat + 63) / 64 ≠ (n'.toNat + 63) / 64)

/-! ### Faults -/

/-- R200, R201, R203: a command reports the smallest code whose cause applies, and completes when none does. -/
def Obligations.TheSmallestApplyingCodeIsReported : Prop :=
  ∀ (i : Instr) (s : State),
    (∀ f, Cause i s f → (∀ g, Cause i s g → f.code ≤ g.code) → exec i s = .next { s with
      err := .fault f, first := if s.first = .ok then .fault f else s.first }) ∧
    ((∀ f, ¬ Cause i s f) → ∃ t, exec i s = .next t ∧ t.err = .ok ∧ t.first = s.first)

/-- R202: every issued word ends in a next state; where it faults, that state is the one before with STATUS.ERR and, if it
was 0, FAULT.FIRST set, and nothing else. -/
def Obligations.AFaultingCommandChangesOnlyItsRecord : Prop :=
  ∀ (v : Word) (s : State), ∃ t, issue v s = .next t ∧
    ∀ f, t.err = .fault f → t = { s with err := .fault f, first := if s.first = .ok then .fault f else s.first }

/-- R203: a command with a cause to fault ends in the fault record of R202 for one of its causes, and a command with none
completes, which sets ERR to 0, whatever it held, and leaves FAULT as it was. -/
def Obligations.ACompletingCommandClearsErrAndKeepsFault : Prop :=
  ∀ (i : Instr) (s : State), ∃ t, exec i s = .next t ∧
    ((∃ f, Cause i s f) → ∃ f, Cause i s f ∧
      t = { s with err := .fault f, first := if s.first = .ok then .fault f else s.first }) ∧
    ((∀ f, ¬ Cause i s f) → t.err = .ok ∧ t.first = s.first ∧
      (regRead t .status).toNat % 256 = 0 ∧ regRead t .fault = regRead s .fault)

/-- R204: once nonzero, FAULT.FIRST keeps its value until reset, whatever the host does. -/
def Obligations.FirstFaultIsStickyUntilReset : Prop :=
  ∀ s t : State, s.first ≠ .ok → s.host.head? ≠ some .reset → step s = .next t → t.first = s.first

/-- R90: an odd round count faults BAD_ROUNDS on every format R command, a 128-bit key without `HAS_KEY128` faults
BAD_KEYBITS, and ROUNDS = 0 is admitted and applies no double-round. -/
def Obligations.FieldValueFaults : Prop :=
  ∀ (s : State) (r : Nat),
    (r % 2 = 1 → ∀ i ∈ [Instr.blockS r, .blockA r, .blockB r, .encrypt r],
      exec i s = .next { s with err := .fault .badRounds, first := if s.first = .ok then .fault .badRounds else s.first }) ∧
    (s.cfg.key128 = none → exec (.setupExt true) s = .next { s with
      err := .fault .badKeybits, first := if s.first = .ok then .fault .badKeybits else s.first }) ∧
    (s.valid = true → ∀ len, BuffersOk s len → ∀ i ∈ [Instr.blockS 0, .blockA 0, .blockB 0, .encrypt 0],
      stride? i s ≠ some 0 → len = streamLen i s → ∃ t, exec i s = .next t ∧ t.err = .ok) ∧
    permute s.S 0 = s.S

/-- R33, R26: with an even round count, BLOCK.A and BLOCK.B fault UNAVAILABLE while their stride is 0, and a block producer
whose backend is available faults NOT_INIT while VALID = 0. -/
def Obligations.UnavailableAndUninitialisedFaults : Prop :=
  ∀ (s : State) (r : Nat), r % 2 = 0 →
    (s.cfg.strideA = 0 → exec (.blockA r) s = .next { s with
      err := .fault .unavailable, first := if s.first = .ok then .fault .unavailable else s.first }) ∧
    (s.cfg.strideB = 0 → exec (.blockB r) s = .next { s with
      err := .fault .unavailable, first := if s.first = .ok then .fault .unavailable else s.first }) ∧
    (s.valid = false → ∀ i ∈ [Instr.blockS r, .blockA r, .blockB r, .encrypt r], stride? i s ≠ some 0 →
      exec i s = .next { s with err := .fault .notInit, first := if s.first = .ok then .fault .notInit else s.first })

/-- R67, R68, R69: for a block producer past its earlier checks, a range that leaves `[0, 2^ADDR_W)` faults RANGE, then
ranges that overlap without being equal fault OVERLAP, then a byte with `MemOK` false faults BUS. -/
def Obligations.RangeThenOverlapThenBus : Prop :=
  ∀ (i : Instr) (s : State) (r len : Nat), i ∈ [Instr.blockS r, .blockA r, .blockB r, .encrypt r] →
    r % 2 = 0 → s.valid = true → stride? i s ≠ some 0 → len = streamLen i s →
    (¬ InSpace s.cfg s.a0.toNat len ∨ ¬ InSpace s.cfg s.a1.toNat len → exec i s = .next { s with
      err := .fault .range, first := if s.first = .ok then .fault .range else s.first }) ∧
    (InSpace s.cfg s.a0.toNat len → InSpace s.cfg s.a1.toNat len → ¬ NoClash s.a0.toNat s.a1.toNat len →
      exec i s = .next { s with
        err := .fault .overlap, first := if s.first = .ok then .fault .overlap else s.first }) ∧
    (InSpace s.cfg s.a0.toNat len → InSpace s.cfg s.a1.toNat len → NoClash s.a0.toNat s.a1.toNat len →
      (∃ a, ((s.a0.toNat ≤ a ∧ a < s.a0.toNat + len) ∨ (s.a1.toNat ≤ a ∧ a < s.a1.toNat + len)) ∧ memOK s.cfg a = false) →
      exec i s = .next { s with
        err := .fault .bus, first := if s.first = .ok then .fault .bus else s.first })

/-! ### Frames -/

/-- R27, R120, R225: a SETUP leaves the parameters, A0..A2, all of buffer memory and the host's actions and answers. -/
def Obligations.SetupFrame : Prop :=
  ∀ (i : Instr) (s t : State), (i = .setupRfc ∨ ∃ k, i = .setupExt k) → exec i s = .next t →
    t.cfg = s.cfg ∧ t.a0 = s.a0 ∧ t.a1 = s.a1 ∧ t.a2 = s.a2 ∧ t.host = s.host ∧ t.answers = s.answers ∧
    ∀ a, t.mem.read a = s.mem.read a

/-- R27, R66, R225: a block producer leaves the parameters, VALID, LAYOUT, A0..A2, every State word but the counter's, the
host's actions and answers, and every byte of memory outside the `streamLen` bytes at A1. -/
def Obligations.BlockProducerFrame : Prop :=
  ∀ (i : Instr) (r : Nat) (s t : State), i ∈ [Instr.blockS r, .blockA r, .blockB r, .encrypt r] → exec i s = .next t →
    t.cfg = s.cfg ∧ t.valid = s.valid ∧ t.layout = s.layout ∧ t.a0 = s.a0 ∧ t.a1 = s.a1 ∧ t.a2 = s.a2 ∧
    t.host = s.host ∧ t.answers = s.answers ∧
    (∀ n : Fin 16, n ≠ 12 → (n ≠ 13 ∨ s.layout = .rfc) → t.S[n] = s.S[n]) ∧
    ∀ a, a < outAddr s ∨ outAddr s + streamLen i s ≤ a → t.mem.read a = s.mem.read a

/-- R66: a command's result depends on buffer memory only through the bytes of its read footprint: two states that differ
only in other bytes end alike, the bytes of the write footprint included, and every other byte of each stays its own. -/
def Obligations.CommandsReadOnlyTheirFootprint : Prop :=
  ∀ (i : Instr) (s : State) (m' : Memory) (t t' : State), s.mem.wf → m'.wf →
    (∀ a, InFootprint (reads i s) a → m'.read a = s.mem.read a) →
    exec i s = .next t → exec i { s with mem := m' } = .next t' →
    t' = { t with mem := t'.mem } ∧
    (∀ a, t.err = .ok → InFootprint (writes i s) a → t'.mem.read a = t.mem.read a) ∧
    (∀ a, ¬ InFootprint (writes i s) a → t'.mem.read a = m'.read a ∧ t.mem.read a = s.mem.read a)

/-- R27 ("State isolation"), R34: over any step that is no reset and issues no SETUP, every State word but the counter's
keeps its value: S[0..11], and the nonce words of the layout. -/
def Obligations.OnlySetupWritesKeyConstantsAndNonce : Prop :=
  ∀ s t : State, step s = .next t → s.host.head? ≠ some .reset →
    (∀ v k rest, s.host = .wr 0x000 v :: rest → decode v ≠ .ok .setupRfc ∧ decode v ≠ .ok (.setupExt k)) →
    ∀ n : Fin 16, n ≠ 12 → (n ≠ 13 ∨ s.layout = .rfc) → t.S[n] = s.S[n]

/-- R25, R26: VALID or LAYOUT changes only by reset or by a SETUP that completes, which sets VALID and its own layout. -/
def Obligations.OnlySetupAndResetWriteValidAndLayout : Prop :=
  ∀ s t : State, step s = .next t → (t.valid ≠ s.valid ∨ t.layout ≠ s.layout) →
    s.host.head? = some .reset ∨
    ∃ v rest, s.host = .wr 0x000 v :: rest ∧ t.err = .ok ∧ t.valid = true ∧
      ((decode v = .ok .setupRfc ∧ t.layout = .rfc) ∨ (∃ k, decode v = .ok (.setupExt k) ∧ t.layout = .ext))

/-- R32, R223: no step changes a parameter, so CAP reads the same for ever. -/
def Obligations.CapabilitiesNeverChange : Prop :=
  ∀ s t : State, step s = .next t → t.cfg = s.cfg ∧ regRead t .cap = regRead s .cap

/-! ### The register window -/

/-- R30, R31, R32: the fields of STATUS, FAULT and CAP, reserved bits 0; R200: the number of each code, the only ones ERR and
FIRST hold. -/
def Obligations.StatusFaultAndCapFields : Prop :=
  (∀ s : State, ∀ c ∈ [(Code.ok, 0), (.fault .illegalOpcode, 1), (.fault .reservedBits, 2), (.fault .badKeybits, 3),
      (.fault .badRounds, 4), (.fault .unavailable, 5), (.fault .notInit, 6), (.fault .range, 7), (.fault .overlap, 8),
      (.fault .bus, 9)],
    c.1.toByte.toNat = c.2 ∧ (s.err = c.1 ↔ (regRead s .status).toNat % 256 = c.2) ∧
    (s.first = c.1 ↔ (regRead s .fault).toNat = c.2)) ∧
  ∀ s : State,
    (regRead s .status).toNat = s.err.toByte.toNat + 2 ^ 8 * (if s.valid then 1 else 0) +
      2 ^ 9 * (if s.layout = .ext then 1 else 0) ∧
    (regRead s .fault).toNat = s.first.toByte.toNat ∧
    (regRead s .cap).toNat = 1 + 2 ^ 8 * s.cfg.strideA.val + 2 ^ 16 * s.cfg.strideB.val +
      2 ^ 24 * (if s.cfg.key128.isSome then 1 else 0)

/-- R35, R36: the offset of every register; a read at a register's offset answers the register's value and changes nothing of
the block; CMD and the reserved offsets read 0, the argument halves and the State words read themselves. -/
def Obligations.RegisterReadsAnswerTheRegisterMap : Prop :=
  (∀ e ∈ [(Reg.cmd, 0x000), (.status, 0x004), (.fault, 0x008), (.cap, 0x00C), (.a0Lo, 0x010), (.a0Hi, 0x014),
      (.a1Lo, 0x018), (.a1Hi, 0x01C), (.a2Lo, 0x020), (.a2Hi, 0x024)],
    e.1.offset = e.2 ∧ Reg.ofOffset e.2 = some e.1) ∧
  (∀ i : Fin 6, (Reg.reserved i).offset = 0x028 + 4 * i.val ∧ Reg.ofOffset (0x028 + 4 * i.val) = some (.reserved i)) ∧
  (∀ i : Fin 16, (Reg.word i).offset = 0x040 + 4 * i.val ∧ Reg.ofOffset (0x040 + 4 * i.val) = some (.word i)) ∧
  (∀ (reg : Reg) (s : State) (rest : List HostOp), s.host = .rd reg.offset :: rest →
    step s = .next { s with host := rest, answers := .reg reg.offset (regRead s reg) :: s.answers }) ∧
  ∀ s : State, regRead s .cmd = 0 ∧ (∀ i, regRead s (.reserved i) = 0) ∧ (∀ i, regRead s (.word i) = s.S[i]) ∧
    (regRead s .a0Hi ++ regRead s .a0Lo : BitVec 64) = s.a0 ∧ (regRead s .a1Hi ++ regRead s .a1Lo : BitVec 64) = s.a1 ∧
    (regRead s .a2Hi ++ regRead s .a2Lo : BitVec 64) = s.a2

/-- R36, R28: a write to a register other than CMD completes; it changes nothing but that register, and an argument half
then reads the written value while every other register of the window reads as before. -/
def Obligations.RegisterWritesChangeOnlyTheRegister : Prop :=
  ∀ (reg : Reg) (v : Word) (s : State) (rest : List HostOp), reg ≠ .cmd → s.host = .wr reg.offset v :: rest →
    ∃ t, step s = .next t ∧
      t = { s with host := rest, a0 := t.a0, a1 := t.a1, a2 := t.a2 } ∧
      (reg ∈ [Reg.a0Lo, .a0Hi, .a1Lo, .a1Hi, .a2Lo, .a2Hi] → regRead t reg = v) ∧
      (reg ∉ [Reg.a0Lo, .a0Hi, .a1Lo, .a1Hi, .a2Lo, .a2Hi] → t = { s with host := rest }) ∧
      ∀ other, other ≠ reg → regRead t other = regRead s other

/-- R36 (D34): a register access is refused exactly when its offset is no multiple of 4 or not below 0x080. -/
def Obligations.UnadmittedRegisterAccessesAreRefused : Prop :=
  ∀ (s : State) (rest : List HostOp) (off : Nat) (v : Word) (op : HostOp),
    (op = .wr off v ∨ op = .rd off) → s.host = op :: rest →
    ((off % 4 ≠ 0 ∨ 0x080 ≤ off) → step s = .refused (.accessNotAdmitted off)) ∧
    (off % 4 = 0 → off < 0x080 → ∃ t, step s = .next t)

/-- R60, R73: a host write of bytes that exist and are backed completes; they then read as written, every other byte as
before, and nothing else of the machine changes; a host read of such a byte (the form of that action is the model's: log 3,
log 15) answers the byte and changes nothing else, so the host reads back what it wrote. -/
def Obligations.HostMemoryWritesReadBack : Prop :=
  (∀ (s : State) (rest : List HostOp) (addr : Nat) (bytes : List Byte),
    s.mem.wf → s.host = .memWr addr bytes :: rest → Reachable s.cfg addr bytes.length →
    ∃ m, step s = .next { s with host := rest, mem := m } ∧ m.wf ∧
      (∀ j b, bytes[j]? = some b → m.read (addr + j) = b) ∧
      ∀ a, a < addr ∨ addr + bytes.length ≤ a → m.read a = s.mem.read a) ∧
  (∀ (s : State) (rest : List HostOp) (addr : Nat),
    s.host = .memRd addr :: rest → addr < 2 ^ s.cfg.addrW → memOK s.cfg addr = true →
    step s = .next { s with host := rest, answers := .mem addr (s.mem.read addr) :: s.answers }) ∧
  ∀ (s : State) (rest : List HostOp) (addr j : Nat) (b : Byte) (bytes : List Byte),
    s.mem.wf → s.host = .memWr addr bytes :: .memRd (addr + j) :: rest → Reachable s.cfg addr bytes.length →
    bytes[j]? = some b →
    ∃ m, Host.Core.run core 2 s = .next { s with host := rest, mem := m, answers := .mem (addr + j) b :: s.answers }

/-- R93: `WR64 An, v` is a write of v[31:0] to `An_LO` and one of v[63:32] to `An_HI`, after which An is v, and nothing else has
changed; "the order of the `WR` lines before a command does not matter": two writes to different registers other than CMD
give the same state in either order. -/
def Obligations.PseudoWriteSetsTheArgumentRegister : Prop :=
  ∀ (v : DWord) (s : State) (rest : List HostOp),
    (s.host = writeArg .a0 v ++ rest → Host.Core.run core 2 s = .next { s with host := rest, a0 := v }) ∧
    (s.host = writeArg .a1 v ++ rest → Host.Core.run core 2 s = .next { s with host := rest, a1 := v }) ∧
    (s.host = writeArg .a2 v ++ rest → Host.Core.run core 2 s = .next { s with host := rest, a2 := v }) ∧
    writeArg .a0 v = [.wr 0x010 (BitVec.ofNat 32 (v.toNat % 2 ^ 32)), .wr 0x014 (BitVec.ofNat 32 (v.toNat / 2 ^ 32))] ∧
    writeArg .a1 v = [.wr 0x018 (BitVec.ofNat 32 (v.toNat % 2 ^ 32)), .wr 0x01C (BitVec.ofNat 32 (v.toNat / 2 ^ 32))] ∧
    writeArg .a2 v = [.wr 0x020 (BitVec.ofNat 32 (v.toNat % 2 ^ 32)), .wr 0x024 (BitVec.ofNat 32 (v.toNat / 2 ^ 32))] ∧
    ∀ (p q : Reg) (x y : Word), p ≠ .cmd → q ≠ .cmd → p ≠ q →
      Host.Core.run core 2 { s with host := .wr p.offset x :: .wr q.offset y :: rest } =
      Host.Core.run core 2 { s with host := .wr q.offset y :: .wr p.offset x :: rest }

/-! ### Reset -/

/-- R220, R39: reset sets every State word, STATUS, FAULT and A0..A2 to 0 and leaves CAP's parameters and memory. -/
def Obligations.ResetClearsTheBlockAndKeepsMemory : Prop :=
  ∀ (s : State) (rest : List HostOp), s.host = .reset :: rest →
    ∃ t, step s = .next t ∧ (∀ n : Fin 16, t.S[n] = 0) ∧ regRead t .status = 0 ∧ regRead t .fault = 0 ∧
      t.a0 = 0 ∧ t.a1 = 0 ∧ t.a2 = 0 ∧ t.cfg = s.cfg ∧ regRead t .cap = regRead s .cap ∧ t.mem = s.mem

/-- R39: the machine right after reset, in the reference configuration of R6 (log 5, log 8). -/
def Obligations.TheResetStateHoldsTheResetValues : Prop :=
  (∀ n : Fin 16, State.reset.S[n] = 0) ∧ State.reset.valid = false ∧ State.reset.layout = .rfc ∧
  State.reset.err = .ok ∧ State.reset.first = .ok ∧ State.reset.a0 = 0 ∧ State.reset.a1 = 0 ∧ State.reset.a2 = 0 ∧
  capWord State.reset.cfg = 0x00020101 ∧ State.reset.mem = []

/-! ### The invariant -/

/-- The reset state meets the invariant in every configuration (R39). -/
def Obligations.ResetMeetsTheInvariant : Prop :=
  (∀ c : Config, Inv (State.resetFor c)) ∧ Inv State.reset

/-- Every step keeps the invariant: memory canonical and only backed bytes written; no fault recorded means the last
command completed; a set-up State has legal rows, a State not set up is the reset State; only reportable codes recorded. -/
def Obligations.EveryStepKeepsTheInvariant : Prop :=
  ∀ s t : State, Inv s → step s = .next t → Inv t

/-! ### Host programs -/

/-- R92, R93: the host actions of every line: a register access at the register's offset, bytes to memory, the write of a
command's word to CMD, and each pseudo-instruction's writes in the order of R93's table, with r = 20 where it is left out; a
line whose round count is above 255 has none (R91). -/
def Obligations.HostLinesExpandAsTabled : Prop :=
  (∀ (reg : Reg) (v : Word), (HostLine.wr reg v).expand = some [.wr reg.offset v] ∧
    (HostLine.rd reg).expand = some [.rd reg.offset]) ∧
  (∀ (addr : Nat) (bytes : List Byte), (HostLine.mem addr bytes).expand = some [.memWr addr bytes]) ∧
  (∀ i : Instr, i.wellFormed = true → (HostLine.command i).expand = some [.wr 0x000 (encode i)]) ∧
  (∀ (a : ArgReg) (v : DWord), (HostLine.wr64 a v).expand = some (writeArg a v)) ∧
  (∀ k n c : DWord, (HostLine.setupRfc k n c).expand =
    some (writeArg .a0 k ++ writeArg .a1 n ++ writeArg .a2 c ++ [.wr 0x000 0x00000001])) ∧
  (∀ k nv : DWord,
    (HostLine.setupExt k nv).expand = some (writeArg .a0 k ++ writeArg .a1 nv ++ [.wr 0x000 0x00000002]) ∧
    (HostLine.setupExt128 k nv).expand = some (writeArg .a0 k ++ writeArg .a1 nv ++ [.wr 0x000 0x00010002])) ∧
  (∀ (i o n : DWord) (r : Nat), r ≤ 255 →
    (HostLine.blockS i o r).expand =
      some (writeArg .a0 i ++ writeArg .a1 o ++ [.wr 0x000 (BitVec.ofNat 32 (0x10 + r * 0x100))]) ∧
    (HostLine.blockA i o r).expand =
      some (writeArg .a0 i ++ writeArg .a1 o ++ [.wr 0x000 (BitVec.ofNat 32 (0x11 + r * 0x100))]) ∧
    (HostLine.blockB i o r).expand =
      some (writeArg .a0 i ++ writeArg .a1 o ++ [.wr 0x000 (BitVec.ofNat 32 (0x12 + r * 0x100))]) ∧
    (HostLine.encrypt i o n r).expand =
      some (writeArg .a0 i ++ writeArg .a1 o ++ writeArg .a2 n ++ [.wr 0x000 (BitVec.ofNat 32 (0x20 + r * 0x100))])) ∧
  (∀ (i o n : DWord) (r : Nat), (HostLine.decrypt i o n r).expand = (HostLine.encrypt i o n r).expand) ∧
  (∀ i o n : DWord, (HostLine.chacha20 i o n).expand = (HostLine.encrypt i o n 20).expand ∧
    (HostLine.blockS i o).expand = (HostLine.blockS i o 20).expand ∧
    (HostLine.blockA i o).expand = (HostLine.blockA i o 20).expand ∧
    (HostLine.blockB i o).expand = (HostLine.blockB i o 20).expand ∧
    (HostLine.encrypt i o n).expand = (HostLine.encrypt i o n 20).expand ∧
    (HostLine.decrypt i o n).expand = (HostLine.decrypt i o n 20).expand) ∧
  ∀ (i o n : DWord) (r : Nat), 255 < r → (HostLine.blockS i o r).expand = none ∧ (HostLine.blockA i o r).expand = none ∧
    (HostLine.blockB i o r).expand = none ∧ (HostLine.encrypt i o n r).expand = none

/-- R93: running a pseudo-instruction's actions is its command with the operands in the argument registers; an argument
register the line does not name keeps its value. -/
def Obligations.PseudoInstructionsRunTheirCommand : Prop :=
  ∀ (s : State) (line : HostLine) (ops rest : List HostOp), line.expand = some ops → s.host = ops ++ rest →
    (∀ k n c, line = .setupRfc k n c →
      Host.Core.run core ops.length s = exec .setupRfc { s with host := rest, a0 := k, a1 := n, a2 := c }) ∧
    (∀ k nv, line = .setupExt k nv →
      Host.Core.run core ops.length s = exec (.setupExt false) { s with host := rest, a0 := k, a1 := nv }) ∧
    (∀ k nv, line = .setupExt128 k nv →
      Host.Core.run core ops.length s = exec (.setupExt true) { s with host := rest, a0 := k, a1 := nv }) ∧
    (∀ i o r, line = .blockS i o r →
      Host.Core.run core ops.length s = exec (.blockS r) { s with host := rest, a0 := i, a1 := o }) ∧
    (∀ i o r, line = .blockA i o r →
      Host.Core.run core ops.length s = exec (.blockA r) { s with host := rest, a0 := i, a1 := o }) ∧
    (∀ i o r, line = .blockB i o r →
      Host.Core.run core ops.length s = exec (.blockB r) { s with host := rest, a0 := i, a1 := o }) ∧
    (∀ i o n r, line = .encrypt i o n r ∨ line = .decrypt i o n r →
      Host.Core.run core ops.length s = exec (.encrypt r) { s with host := rest, a0 := i, a1 := o, a2 := n }) ∧
    (∀ i o n, line = .chacha20 i o n →
      Host.Core.run core ops.length s = exec (.encrypt 20) { s with host := rest, a0 := i, a1 := o, a2 := n })

/-- R60, R69, R71, with the stops that are the model's choice (log 9): a host access to buffer memory stops at the first of its
bytes that does not exist or is not backed, by that byte's name, so a write that stops writes nothing; an access whose bytes
all exist and are backed completes. -/
def Obligations.HostMemoryAccessesStopAtTheFirstUnreachableByte : Prop :=
  ∀ (s : State) (rest : List HostOp) (op : HostOp) (addr n : Nat),
    ((∃ bytes, op = .memWr addr bytes ∧ n = bytes.length) ∨ (op = .memRd addr ∧ n = 1)) → s.host = op :: rest →
    (∀ a, addr ≤ a → a < addr + n → (∀ b, addr ≤ b → b < a → b < 2 ^ s.cfg.addrW ∧ memOK s.cfg b = true) →
      (2 ^ s.cfg.addrW ≤ a → step s = .fault (.outsideBuffer a)) ∧
      (a < 2 ^ s.cfg.addrW → memOK s.cfg a = false → step s = .fault (.unbackedByte a))) ∧
    ((∀ a, addr ≤ a → a < addr + n → a < 2 ^ s.cfg.addrW ∧ memOK s.cfg a = true) → ∃ t, step s = .next t)
end

