-- ==== Sys2Proof/Laws/State.lean ====
section
/-! SUPPORT. One lemma per field per update of the state, true by rfl, so that no later proof unfolds a record update. -/

namespace Sys2Proof.Machine

/-! ### raise -/

@[simp] theorem raise_cfg (f : FaultCode) (s : State) :
    (raise f s).cfg = s.cfg := rfl

@[simp] theorem raise_S (f : FaultCode) (s : State) :
    (raise f s).S = s.S := rfl

@[simp] theorem raise_err (f : FaultCode) (s : State) :
    (raise f s).err = .fault f := rfl

@[simp] theorem raise_valid (f : FaultCode) (s : State) :
    (raise f s).valid = s.valid := rfl

@[simp] theorem raise_layout (f : FaultCode) (s : State) :
    (raise f s).layout = s.layout := rfl

@[simp] theorem raise_first (f : FaultCode) (s : State) :
    (raise f s).first = if s.first = .ok then .fault f else s.first := rfl

@[simp] theorem raise_a0 (f : FaultCode) (s : State) :
    (raise f s).a0 = s.a0 := rfl

@[simp] theorem raise_a1 (f : FaultCode) (s : State) :
    (raise f s).a1 = s.a1 := rfl

@[simp] theorem raise_a2 (f : FaultCode) (s : State) :
    (raise f s).a2 = s.a2 := rfl

@[simp] theorem raise_mem (f : FaultCode) (s : State) :
    (raise f s).mem = s.mem := rfl

@[simp] theorem raise_host (f : FaultCode) (s : State) :
    (raise f s).host = s.host := rfl

@[simp] theorem raise_answers (f : FaultCode) (s : State) :
    (raise f s).answers = s.answers := rfl

/-! ### complete -/

@[simp] theorem complete_cfg (s : State) :
    (complete s).cfg = s.cfg := rfl

@[simp] theorem complete_S (s : State) :
    (complete s).S = s.S := rfl

@[simp] theorem complete_err (s : State) :
    (complete s).err = .ok := rfl

@[simp] theorem complete_valid (s : State) :
    (complete s).valid = s.valid := rfl

@[simp] theorem complete_layout (s : State) :
    (complete s).layout = s.layout := rfl

@[simp] theorem complete_first (s : State) :
    (complete s).first = s.first := rfl

@[simp] theorem complete_a0 (s : State) :
    (complete s).a0 = s.a0 := rfl

@[simp] theorem complete_a1 (s : State) :
    (complete s).a1 = s.a1 := rfl

@[simp] theorem complete_a2 (s : State) :
    (complete s).a2 = s.a2 := rfl

@[simp] theorem complete_mem (s : State) :
    (complete s).mem = s.mem := rfl

@[simp] theorem complete_host (s : State) :
    (complete s).host = s.host := rfl

@[simp] theorem complete_answers (s : State) :
    (complete s).answers = s.answers := rfl

/-! ### setUp -/

@[simp] theorem setUp_cfg (l : Layout) (S : StateWords) (s : State) :
    (setUp l S s).cfg = s.cfg := rfl

@[simp] theorem setUp_S (l : Layout) (S : StateWords) (s : State) :
    (setUp l S s).S = S := rfl

@[simp] theorem setUp_err (l : Layout) (S : StateWords) (s : State) :
    (setUp l S s).err = s.err := rfl

@[simp] theorem setUp_valid (l : Layout) (S : StateWords) (s : State) :
    (setUp l S s).valid = true := rfl

@[simp] theorem setUp_layout (l : Layout) (S : StateWords) (s : State) :
    (setUp l S s).layout = l := rfl

@[simp] theorem setUp_first (l : Layout) (S : StateWords) (s : State) :
    (setUp l S s).first = s.first := rfl

@[simp] theorem setUp_a0 (l : Layout) (S : StateWords) (s : State) :
    (setUp l S s).a0 = s.a0 := rfl

@[simp] theorem setUp_a1 (l : Layout) (S : StateWords) (s : State) :
    (setUp l S s).a1 = s.a1 := rfl

@[simp] theorem setUp_a2 (l : Layout) (S : StateWords) (s : State) :
    (setUp l S s).a2 = s.a2 := rfl

@[simp] theorem setUp_mem (l : Layout) (S : StateWords) (s : State) :
    (setUp l S s).mem = s.mem := rfl

@[simp] theorem setUp_host (l : Layout) (S : StateWords) (s : State) :
    (setUp l S s).host = s.host := rfl

@[simp] theorem setUp_answers (l : Layout) (S : StateWords) (s : State) :
    (setUp l S s).answers = s.answers := rfl

/-! ### produce -/

@[simp] theorem produce_cfg (r len n : Nat) (s : State) :
    (produce r len n s).cfg = s.cfg := rfl

@[simp] theorem produce_S (r len n : Nat) (s : State) :
    (produce r len n s).S = advance s.layout s.S n := rfl

@[simp] theorem produce_err (r len n : Nat) (s : State) :
    (produce r len n s).err = s.err := rfl

@[simp] theorem produce_valid (r len n : Nat) (s : State) :
    (produce r len n s).valid = s.valid := rfl

@[simp] theorem produce_layout (r len n : Nat) (s : State) :
    (produce r len n s).layout = s.layout := rfl

@[simp] theorem produce_first (r len n : Nat) (s : State) :
    (produce r len n s).first = s.first := rfl

@[simp] theorem produce_a0 (r len n : Nat) (s : State) :
    (produce r len n s).a0 = s.a0 := rfl

@[simp] theorem produce_a1 (r len n : Nat) (s : State) :
    (produce r len n s).a1 = s.a1 := rfl

@[simp] theorem produce_a2 (r len n : Nat) (s : State) :
    (produce r len n s).a2 = s.a2 := rfl

@[simp] theorem produce_mem (r len n : Nat) (s : State) :
    (produce r len n s).mem = s.mem.writeBytes (outAddr s) (xorBytes (s.mem.readBytes (inAddr s) len) (keystream s.layout s.S r len)) := rfl

@[simp] theorem produce_host (r len n : Nat) (s : State) :
    (produce r len n s).host = s.host := rfl

@[simp] theorem produce_answers (r len n : Nat) (s : State) :
    (produce r len n s).answers = s.answers := rfl

/-! ### resetBlock -/

@[simp] theorem resetBlock_cfg (s : State) :
    (resetBlock s).cfg = s.cfg := rfl

@[simp] theorem resetBlock_S (s : State) :
    (resetBlock s).S = Vector.replicate 16 0 := rfl

@[simp] theorem resetBlock_err (s : State) :
    (resetBlock s).err = .ok := rfl

@[simp] theorem resetBlock_valid (s : State) :
    (resetBlock s).valid = false := rfl

@[simp] theorem resetBlock_layout (s : State) :
    (resetBlock s).layout = .rfc := rfl

@[simp] theorem resetBlock_first (s : State) :
    (resetBlock s).first = .ok := rfl

@[simp] theorem resetBlock_a0 (s : State) :
    (resetBlock s).a0 = 0 := rfl

@[simp] theorem resetBlock_a1 (s : State) :
    (resetBlock s).a1 = 0 := rfl

@[simp] theorem resetBlock_a2 (s : State) :
    (resetBlock s).a2 = 0 := rfl

@[simp] theorem resetBlock_mem (s : State) :
    (resetBlock s).mem = s.mem := rfl

@[simp] theorem resetBlock_host (s : State) :
    (resetBlock s).host = s.host := rfl

@[simp] theorem resetBlock_answers (s : State) :
    (resetBlock s).answers = s.answers := rfl

end Sys2Proof.Machine
end

