-- ==== Sys2Proof/Laws/Memory.lean ====
section
/-! SUPPORT. Buffer memory: reading after writing, and that every operation keeps the canonical form. -/

namespace Sys2Proof.Machine

@[simp] theorem Memory.read_nil (a : Nat) : Memory.read [] a = Memory.unlisted := rfl

theorem Memory.read_cons_cell (k : Nat) (b : Byte) (m : Memory) (a : Nat) :
    Memory.read ((k, b) :: m) a = if k = a then b else Memory.read m a := rfl

theorem Memory.read_cons_of_ne {a k : Nat} (m : Memory) (v : Byte) (h : k ≠ a) :
    (Memory.cons k v m).read a = m.read a := by
  unfold Memory.cons
  split
  · rfl
  · simp [Memory.read_cons_cell, h]

/-- An address below every entry reads as an unlisted address does. -/
theorem Memory.read_of_lt {m : Memory} {a : Nat} (h : ∀ c ∈ m, a < c.1) : m.read a = Memory.unlisted := by
  induction m with
  | nil => rfl
  | cons c m ih =>
    obtain ⟨k, b⟩ := c
    have hk := h (k, b) (by simp)
    rw [Memory.read_cons_cell, if_neg (by simp at hk; omega)]
    exact ih fun c hc => h c (by simp [hc])

theorem Memory.read_cons_self {m : Memory} {a : Nat} (v : Byte) (h : ∀ c ∈ m, a < c.1) :
    (Memory.cons a v m).read a = v := by
  unfold Memory.cons
  split
  · next hv => rw [Memory.read_of_lt h, hv]
  · simp [Memory.read_cons_cell]

theorem Memory.wf_nil : Memory.wf [] := by simp [Memory.wf]

/-- Memory right after reset is in the canonical form. -/
theorem reset_mem_wf : State.reset.mem.wf := Memory.wf_nil

theorem Memory.wf_cons {k : Nat} {b : Byte} {m : Memory} :
    Memory.wf ((k, b) :: m) ↔ (∀ c ∈ m, k < c.1) ∧ b ≠ Memory.unlisted ∧ Memory.wf m := by
  simp only [Memory.wf, List.pairwise_cons, List.mem_cons, forall_eq_or_imp]
  tauto

theorem Memory.wf_consCell {a : Nat} {v : Byte} {m : Memory} (hm : m.wf) (h : ∀ c ∈ m, a < c.1) :
    (Memory.cons a v m).wf := by
  unfold Memory.cons
  split
  · exact hm
  · next hv => exact Memory.wf_cons.2 ⟨h, hv, hm⟩

/-- A cell of a memory after a write is the written one or an old one. -/
theorem Memory.mem_write {m : Memory} {a : Nat} {v : Byte} {c : Host.Cell} (h : c ∈ m.write a v) :
    c = (a, v) ∨ c ∈ m := by
  induction m with
  | nil =>
    simp only [Memory.write, Memory.cons] at h
    split at h <;> simp_all
  | cons d m ih =>
    obtain ⟨k, b⟩ := d
    simp only [Memory.write, Memory.cons] at h
    split at h
    · split at h <;> simp_all
    · split at h
      · split at h <;> (simp_all; try tauto)
      · rcases List.mem_cons.1 h with h | h
        · simp [h]
        · rcases ih h with h | h <;> simp [h]

/-- A write keeps the canonical form. -/
theorem Memory.write_wf {m : Memory} (hm : m.wf) (a : Nat) (v : Byte) : (m.write a v).wf := by
  induction m with
  | nil => exact Memory.wf_consCell Memory.wf_nil (by simp)
  | cons c m ih =>
    obtain ⟨k, b⟩ := c
    obtain ⟨hk, hb, hw⟩ := Memory.wf_cons.1 hm
    simp only [Memory.write]
    split
    · next hlt =>
      refine Memory.wf_consCell hm fun c hc => ?_
      rcases List.mem_cons.1 hc with rfl | hc
      · exact hlt
      · exact hlt.trans (hk c hc)
    · split
      · next heq => exact Memory.wf_consCell hw (heq ▸ hk)
      · next hge hne =>
        refine Memory.wf_cons.2 ⟨fun c hc => ?_, hb, ih hw⟩
        rcases Memory.mem_write hc with rfl | hc
        · simp only; omega
        · exact hk c hc

/-- A write leaves every other address alone. -/
theorem Memory.read_write_of_ne (m : Memory) {a k : Nat} (v : Byte) (h : k ≠ a) :
    (m.write k v).read a = m.read a := by
  induction m with
  | nil => exact Memory.read_cons_of_ne [] v h
  | cons c m ih =>
    obtain ⟨k', b⟩ := c
    simp only [Memory.write]
    split
    · exact Memory.read_cons_of_ne _ v h
    · split
      · next heq =>
        rw [Memory.read_cons_of_ne _ v h, Memory.read_cons_cell, if_neg (heq ▸ h)]
      · simp only [Memory.read_cons_cell, ih]

/-- A read after a write to the same address gives the value written. -/
theorem Memory.read_write_self {m : Memory} (hm : m.wf) (a : Nat) (v : Byte) : (m.write a v).read a = v := by
  induction m with
  | nil => exact Memory.read_cons_self v (by simp)
  | cons c m ih =>
    obtain ⟨k, b⟩ := c
    obtain ⟨hk, -, hw⟩ := Memory.wf_cons.1 hm
    simp only [Memory.write]
    split
    · next hlt =>
      refine Memory.read_cons_self v fun c hc => ?_
      rcases List.mem_cons.1 hc with rfl | hc
      · exact hlt
      · exact hlt.trans (hk c hc)
    · split
      · next heq => exact Memory.read_cons_self v (heq ▸ hk)
      · next hge hne =>
        rw [Memory.read_cons_cell, if_neg (by omega), ih hw]

theorem Memory.read_write {m : Memory} (hm : m.wf) (k a : Nat) (v : Byte) :
    (m.write k v).read a = if k = a then v else m.read a := by
  split
  · next h => subst h; exact Memory.read_write_self hm k v
  · next h => exact Memory.read_write_of_ne m v h

/-- Two memories in canonical form that read alike at every address are the same list. -/
theorem Memory.ext_of_read {m m' : Memory} (hm : m.wf) (hm' : m'.wf) (h : ∀ a, m.read a = m'.read a) : m = m' := by
  induction m generalizing m' with
  | nil =>
    cases m' with
    | nil => rfl
    | cons c m' =>
      obtain ⟨k, b⟩ := c
      have := h k
      rw [Memory.read_cons_cell, if_pos rfl] at this
      exact absurd this.symm (Memory.wf_cons.1 hm').2.1
  | cons c m ih =>
    obtain ⟨k, b⟩ := c
    obtain ⟨hk, hb, hw⟩ := Memory.wf_cons.1 hm
    cases m' with
    | nil =>
      have := h k
      rw [Memory.read_cons_cell, if_pos rfl] at this
      exact absurd this hb
    | cons c' m' =>
      obtain ⟨k', b'⟩ := c'
      obtain ⟨hk', hb', hw'⟩ := Memory.wf_cons.1 hm'
      have hkk : k = k' := by
        rcases Nat.lt_trichotomy k k' with hlt | heq | hgt
        · have h1 := h k
          rw [Memory.read_cons_cell, if_pos rfl, Memory.read_of_lt] at h1
          · exact absurd h1 hb
          · intro c hc
            rcases List.mem_cons.1 hc with rfl | hc
            · exact hlt
            · exact hlt.trans (hk' c hc)
        · exact heq
        · have h1 := h k'
          rw [Memory.read_cons_cell k', if_pos rfl, Memory.read_of_lt] at h1
          · exact absurd h1.symm hb'
          · intro c hc
            rcases List.mem_cons.1 hc with rfl | hc
            · exact hgt
            · exact hgt.trans (hk c hc)
      subst hkk
      have hbb : b = b' := by
        have h1 := h k
        rwa [Memory.read_cons_cell, if_pos rfl, Memory.read_cons_cell, if_pos rfl] at h1
      subst hbb
      congr 1
      refine ih hw hw' fun a => ?_
      by_cases ha : k = a
      · subst ha
        rw [Memory.read_of_lt hk, Memory.read_of_lt hk']
      · have h1 := h a
        rwa [Memory.read_cons_cell, if_neg ha, Memory.read_cons_cell, if_neg ha] at h1

/-! ### Byte strings -/

@[simp] theorem Memory.length_readBytes (m : Memory) (a n : Nat) : (m.readBytes a n).length = n := by
  simp [Memory.readBytes]

theorem Memory.getElem?_readBytes (m : Memory) (a n j : Nat) :
    (m.readBytes a n)[j]? = if j < n then some (m.read (a + j)) else none := by
  simp only [Memory.readBytes, List.getElem?_map]
  split
  · next h => simp [h]
  · next h => simp; omega

theorem Memory.readBytes_congr {m m' : Memory} {a n : Nat} (h : ∀ j < n, m.read (a + j) = m'.read (a + j)) :
    m.readBytes a n = m'.readBytes a n := by
  refine List.map_congr_left fun j hj => h j (by simpa using hj)

theorem Memory.readBytes_add (m : Memory) (a n k : Nat) :
    m.readBytes a (n + k) = m.readBytes a n ++ m.readBytes (a + n) k := by
  simp only [Memory.readBytes, List.range_add, List.map_append, List.map_map]
  congr 1
  exact List.map_congr_left fun j _ => by simp [Nat.add_assoc]

/-- Writing a byte string keeps the canonical form. -/
theorem Memory.writeBytes_wf {m : Memory} (hm : m.wf) (a : Nat) (bs : List Byte) : (m.writeBytes a bs).wf := by
  induction bs generalizing m a with
  | nil => exact hm
  | cons b bs ih => exact ih (Memory.write_wf hm a b) (a + 1)

/-- Writing a byte string leaves every address outside it alone. -/
theorem Memory.read_writeBytes_outside (m : Memory) {a c : Nat} (bs : List Byte)
    (h : c < a ∨ a + bs.length ≤ c) : (m.writeBytes a bs).read c = m.read c := by
  induction bs generalizing m a with
  | nil => rfl
  | cons b bs ih =>
    simp only [List.length_cons] at h
    rw [Memory.writeBytes, ih _ (by omega), Memory.read_write_of_ne _ _ (by omega)]

/-- The bytes written read back. -/
theorem Memory.read_writeBytes_inside {m : Memory} (hm : m.wf) {a j : Nat} {bs : List Byte} {b : Byte}
    (h : bs[j]? = some b) : (m.writeBytes a bs).read (a + j) = b := by
  induction bs generalizing m a j with
  | nil => simp at h
  | cons c bs ih =>
    rw [Memory.writeBytes]
    cases j with
    | zero =>
      rw [Memory.read_writeBytes_outside _ _ (by omega), Nat.add_zero, Memory.read_write_self hm]
      simpa using h
    | succ j =>
      have := ih (Memory.write_wf hm a c) (a := a + 1) (j := j) (by simpa using h)
      rwa [Nat.add_right_comm, Nat.add_assoc] at this

theorem Memory.writeBytes_append (m : Memory) (a : Nat) (bs cs : List Byte) :
    m.writeBytes a (bs ++ cs) = (m.writeBytes a bs).writeBytes (a + bs.length) cs := by
  induction bs generalizing m a with
  | nil => rfl
  | cons b bs ih =>
    simp only [List.cons_append, Memory.writeBytes, ih, List.length_cons]
    congr 1
    omega

/-- A cell of a memory after writing a byte string is an old one or lies in the written range. -/
theorem Memory.mem_writeBytes {m : Memory} {a : Nat} {bs : List Byte} {c : Host.Cell}
    (h : c ∈ m.writeBytes a bs) : c ∈ m ∨ (a ≤ c.1 ∧ c.1 < a + bs.length) := by
  induction bs generalizing m a with
  | nil => exact .inl h
  | cons b bs ih =>
    rcases ih h with h | h
    · rcases Memory.mem_write h with rfl | h
      · right; simp
      · exact .inl h
    · right; simp only [List.length_cons]; omega

/-! ### XOR -/

theorem length_xorBytes (xs ys : List Byte) : (xorBytes xs ys).length = min xs.length ys.length := by
  simp [xorBytes]

theorem getElem?_xorBytes {xs ys : List Byte} {j : Nat} {x y : Byte} (hx : xs[j]? = some x) (hy : ys[j]? = some y) :
    (xorBytes xs ys)[j]? = some (x ^^^ y) := by
  simp [xorBytes, List.getElem?_zipWith, hx, hy]

theorem xorBytes_append {xs xs' ys ys' : List Byte} (h : xs.length = ys.length) :
    xorBytes (xs ++ xs') (ys ++ ys') = xorBytes xs ys ++ xorBytes xs' ys' :=
  List.zipWith_append h

/-! ### Words of memory -/

theorem readWord_eq_memWord (m : Memory) (base i : Nat) : m.readWord (base + 4 * i) = memWord m base i := rfl

theorem memWord_congr {m m' : Memory} {base i : Nat} (h : ∀ j, j < 4 → m.read (base + 4 * i + j) = m'.read (base + 4 * i + j)) :
    memWord m base i = memWord m' base i := by
  simp only [memWord]
  rw [show m.read (base + 4 * i) = m'.read (base + 4 * i) from h 0 (by omega), h 1 (by omega), h 2 (by omega), h 3 (by omega)]

end Sys2Proof.Machine
end

