-- ==== Sys2Proof/Laws/Checks.lean ====
section
/-! SUPPORT. What each check says in the terms of its rule, and how a command ends. -/

namespace Sys2Proof.Machine

/-! ### Ranges -/

theorem inSpace_iff (c : Config) (p : Span) : p.inSpace c = true ↔ InSpace c p.base p.len := by
  simp [Span.inSpace, InSpace]

theorem clashes_iff (i o : Span) : i.clashes o = false ↔
    i.base = o.base ∨ o.base + o.len ≤ i.base ∨ i.base + i.len ≤ o.base ∨ i.len = 0 := by
  simp only [Span.clashes, Bool.not_eq_false', Bool.or_eq_true, decide_eq_true_eq]
  tauto

/-- Two ranges of one length: the check is rule R68's. -/
theorem clashes_iff_noClash (i o len : Nat) : Span.clashes ⟨i, len⟩ ⟨o, len⟩ = false ↔ NoClash i o len :=
  clashes_iff _ _

theorem memOK_iff (c : Config) (a : Nat) : memOK c a = true ↔ ∀ r ∈ c.unbacked, a < r.lo ∨ r.hi ≤ a := by
  simp [memOK]

/-- The BUS check asks every byte of the range (R69). -/
theorem backed_iff (c : Config) (p : Span) : p.backed c = true ↔ Backed c p.base p.len := by
  simp only [Span.backed, Backed, memOK_iff, Bool.or_eq_true, decide_eq_true_eq, List.all_eq_true]
  constructor
  · rintro (h | h) a h1 h2 r hr
    · omega
    · have := h r hr
      omega
  · intro h
    by_cases hl : p.len = 0
    · exact .inl hl
    · refine .inr fun r hr => ?_
      by_contra hc
      have := h (max p.base r.lo) (by omega) (by omega) r hr
      omega

theorem reachable_iff (c : Config) (base len : Nat) :
    Reachable c base len ↔ Span.inSpace c ⟨base, len⟩ = true ∧ Span.backed c ⟨base, len⟩ = true := by
  rw [inSpace_iff, backed_iff]
  rfl

/-! ### The first fault -/

theorem firstFault_eq_none {cs : List (Bool × FaultCode)} : firstFault cs = none ↔ ∀ c ∈ cs, c.1 = false := by
  induction cs with
  | nil => simp [firstFault]
  | cons c cs ih =>
    obtain ⟨b, f⟩ := c
    cases b <;> simp [firstFault, ih]

/-- The reported code is one of the checks', and its cause holds. -/
theorem firstFault_mem {cs : List (Bool × FaultCode)} {f : FaultCode} (h : firstFault cs = some f) : (true, f) ∈ cs := by
  induction cs with
  | nil => simp [firstFault] at h
  | cons c cs ih =>
    obtain ⟨b, g⟩ := c
    cases b
    · exact List.mem_cons_of_mem _ (ih (by simpa [firstFault] using h))
    · have : g = f := by simpa [firstFault] using h
      simp [this]

@[simp] theorem firstFault_nil : firstFault [] = none := rfl

@[simp] theorem firstFault_true (f : FaultCode) (cs : List (Bool × FaultCode)) : firstFault ((true, f) :: cs) = some f := rfl

@[simp] theorem firstFault_false (f : FaultCode) (cs : List (Bool × FaultCode)) :
    firstFault ((false, f) :: cs) = firstFault cs := rfl

/-- RANGE, OVERLAP and BUS all pass exactly when every range is reachable and no input range clashes with an output
range. -/
theorem accessChecks_pass (c : Config) (rd wr : List Span) : firstFault (accessChecks c rd wr) = none ↔
    (∀ p ∈ rd ++ wr, Reachable c p.base p.len) ∧ ∀ i ∈ rd, ∀ o ∈ wr, i.clashes o = false := by
  simp only [accessChecks, firstFault_eq_none, List.mem_cons, List.not_mem_nil, or_false, forall_eq_or_imp, forall_eq,
    List.any_eq_false, Bool.not_eq_true, Bool.not_eq_false', reachable_iff]
  constructor
  · rintro ⟨h1, h2, h3⟩
    exact ⟨fun p hp => ⟨h1 p hp, h3 p hp⟩, h2⟩
  · rintro ⟨h1, h2⟩
    exact ⟨fun p hp => (h1 p hp).1, h2, fun p hp => (h1 p hp).2⟩

/-- A command that only reads: its ranges are reachable. -/
theorem accessChecks_read (c : Config) (rd : List Span) : firstFault (accessChecks c rd []) = none ↔
    ∀ p ∈ rd, Reachable c p.base p.len := by
  rw [accessChecks_pass]
  simp

/-- A block producer's checks pass exactly when its buffers are admitted. -/
theorem accessChecks_stream (s : State) (len : Nat) :
    firstFault (accessChecks s.cfg [⟨inAddr s, len⟩] [⟨outAddr s, len⟩]) = none ↔ BuffersOk s len := by
  rw [accessChecks_pass]
  simp [BuffersOk, clashes_iff_noClash, inAddr, outAddr, and_assoc]

/-- The access checks report RANGE, OVERLAP or BUS. -/
theorem accessChecks_code {c : Config} {rd wr : List Span} {f : FaultCode}
    (h : firstFault (accessChecks c rd wr) = some f) : f = .range ∨ f = .overlap ∨ f = .bus := by
  have := firstFault_mem h
  simp only [accessChecks, List.mem_cons, Prod.mk.injEq, List.not_mem_nil, or_false] at this
  tauto

/-- A range that leaves the address space is reported first (R67). -/
theorem accessChecks_range {c : Config} {rd wr : List Span} (h : ∃ p ∈ rd ++ wr, ¬ InSpace c p.base p.len) :
    firstFault (accessChecks c rd wr) = some .range := by
  obtain ⟨p, hp, hn⟩ := h
  have : ((rd ++ wr).any fun p => !p.inSpace c) = true :=
    List.any_eq_true.2 ⟨p, hp, by simpa [← inSpace_iff] using hn⟩
  simp only [accessChecks, this, firstFault_true]

/-- Ranges inside the space that clash are reported next (R68). -/
theorem accessChecks_overlap {c : Config} {rd wr : List Span} (h : ∀ p ∈ rd ++ wr, InSpace c p.base p.len)
    (hc : ∃ i ∈ rd, ∃ o ∈ wr, i.clashes o = true) : firstFault (accessChecks c rd wr) = some .overlap := by
  obtain ⟨i, hi, o, ho, hio⟩ := hc
  have h1 : ((rd ++ wr).any fun p => !p.inSpace c) = false :=
    List.any_eq_false.2 fun p hp => by simpa using (inSpace_iff c p).2 (h p hp)
  have h2 : (rd.any fun i => wr.any fun o => i.clashes o) = true :=
    List.any_eq_true.2 ⟨i, hi, List.any_eq_true.2 ⟨o, ho, hio⟩⟩
  simp only [accessChecks, h1, h2, firstFault_true, firstFault_false]

/-- A byte the platform does not back is reported last (R69). -/
theorem accessChecks_bus {c : Config} {rd wr : List Span} (h : ∀ p ∈ rd ++ wr, InSpace c p.base p.len)
    (hc : ∀ i ∈ rd, ∀ o ∈ wr, i.clashes o = false) (hb : ∃ p ∈ rd ++ wr, ¬ Backed c p.base p.len) :
    firstFault (accessChecks c rd wr) = some .bus := by
  obtain ⟨p, hp, hn⟩ := hb
  have h1 : ((rd ++ wr).any fun p => !p.inSpace c) = false :=
    List.any_eq_false.2 fun p hp => by simpa using (inSpace_iff c p).2 (h p hp)
  have h2 : (rd.any fun i => wr.any fun o => i.clashes o) = false :=
    List.any_eq_false.2 fun i hi => by simpa using hc i hi
  have h3 : ((rd ++ wr).any fun p => !p.backed c) = true :=
    List.any_eq_true.2 ⟨p, hp, by simpa [← backed_iff] using hn⟩
  simp only [accessChecks, h1, h2, h3, firstFault_true, firstFault_false]

theorem not_backed_iff (c : Config) (base len : Nat) :
    ¬ Backed c base len ↔ ∃ a, base ≤ a ∧ a < base + len ∧ memOK c a = false := by
  simp [Backed]

/-! ### How a command ends -/

theorem finish_fault {s d : State} {cs : List (Bool × FaultCode)} {f : FaultCode} (h : firstFault cs = some f) :
    finish s cs d = .next (raise f s) := by
  simp [finish, h]

theorem finish_pass {s d : State} {cs : List (Bool × FaultCode)} (h : firstFault cs = none) :
    finish s cs d = .next (complete d) := by
  simp [finish, h]

/-- Every command ends in a next state: the first check that fails, recorded, or all of its effects. -/
theorem finish_cases (s d : State) (cs : List (Bool × FaultCode)) :
    (∃ f, firstFault cs = some f ∧ finish s cs d = .next (raise f s)) ∨
    (firstFault cs = none ∧ finish s cs d = .next (complete d)) := by
  rcases h : firstFault cs with _ | f
  · exact .inr ⟨rfl, finish_pass h⟩
  · exact .inl ⟨f, rfl, finish_fault h⟩

end Sys2Proof.Machine
end

