-- ==== Sys2Proof/Laws/RoundCore.lean ====
section
/-! SUPPORT. The block's bytes, the counter's arithmetic, and the keystream byte by byte. -/

namespace Sys2Proof.Machine

/-! ### Serialization -/

@[simp] theorem length_bytesLe (w : Word) : (bytesLe w).length = 4 := rfl

/-- The n-th of equal-length pieces of a flattened list. -/
theorem getElem?_flatMap_of_length {α β : Type} {f : α → List β} {d : Nat} (hf : ∀ a, (f a).length = d)
    (xs : List α) (j : Nat) (hj : j < d * xs.length) :
    (xs.flatMap f)[j]? = (xs[j / d]?).bind fun a => (f a)[j % d]? := by
  have hd : 0 < d := by
    rcases Nat.eq_zero_or_pos d with rfl | h
    · simp at hj
    · exact h
  induction xs generalizing j with
  | nil => simp at hj
  | cons a xs ih =>
    rw [List.flatMap_cons, List.getElem?_append, hf]
    split
    · next h => simp [Nat.div_eq_of_lt h, Nat.mod_eq_of_lt h]
    · next h =>
      rw [ih (j - d) (by simp only [List.length_cons, Nat.mul_succ] at hj; omega)]
      obtain ⟨e, rfl⟩ : ∃ e, j = e + d := ⟨j - d, by omega⟩
      simp [Nat.add_div_right _ hd, Nat.add_mod_right]

theorem length_flatMap_of_length {α β : Type} {f : α → List β} {d : Nat} (hf : ∀ a, (f a).length = d)
    (xs : List α) : (xs.flatMap f).length = d * xs.length := by
  induction xs with
  | nil => simp
  | cons a xs ih => simp [List.flatMap_cons, hf, ih, Nat.mul_succ, Nat.add_comm]

@[simp] theorem length_serialize (y : StateWords) : (serialize y).length = 64 := by
  rw [serialize, length_flatMap_of_length length_bytesLe]
  simp

@[simp] theorem length_block (S : StateWords) (r : Nat) : (block S r).length = 64 := length_serialize _

/-- Byte 4i + m of the serialization is byte m of word i (R108). -/
theorem getElem?_serialize (y : StateWords) (i : Fin 16) (m : Fin 4) :
    (serialize y)[4 * i.val + m.val]? = some (y[i].extractLsb' (8 * m.val) 8) := by
  rw [serialize, getElem?_flatMap_of_length length_bytesLe _ _ (by simp; omega)]
  have h1 : (4 * i.val + m.val) / 4 = i.val := by omega
  have h2 : (4 * i.val + m.val) % 4 = m.val := by omega
  rw [h1, h2]
  have h3 : y.toList[i.val]? = some y[i] := by simp
  rw [h3, Option.bind_some]
  fin_cases m <;> rfl

/-! ### The permutation -/

theorem permute_zero (x : StateWords) : permute x 0 = x := rfl

theorem permute_add_two (x : StateWords) (r : Nat) : permute x (r + 2) = doubleRound (permute x r) := by
  simp only [permute, Nat.add_div_right r (show 0 < 2 by decide)]
  exact Function.iterate_succ_apply' doubleRound (r / 2) x

/-! ### The counter -/

@[simp] theorem cw_rfc : Layout.rfc.cw = 32 := rfl
@[simp] theorem cw_ext : Layout.ext.cw = 64 := rfl

theorem ctr_ext (S : StateWords) : ctr .ext S = S[13].toNat * 2 ^ 32 + S[12].toNat := by
  simp only [ctr, BitVec.toNat_append]
  rw [← Nat.shiftLeft_add_eq_or_of_lt (S[12]).isLt, Nat.shiftLeft_eq]

theorem ctr_lt (l : Layout) (S : StateWords) : ctr l S < 2 ^ l.cw := by
  cases l with
  | rfc => exact S[12].isLt
  | ext => exact (S[13] ++ S[12]).isLt

/-- Placing a counter value leaves every other word (R110). -/
theorem getElem_withCtr (l : Layout) (S : StateWords) (v : Nat) (i : Fin 16) (h12 : i ≠ 12)
    (h13 : i ≠ 13 ∨ l = .rfc) : (withCtr l S v)[i] = S[i] := by
  have h12' : i.val ≠ 12 := fun h => h12 (Fin.ext h)
  cases l with
  | rfc => simp [withCtr, h12'.symm]
  | ext =>
    have h13' : i.val ≠ 13 := by
      rcases h13 with h | h
      · exact fun h' => h (Fin.ext h')
      · cases h
    simp [withCtr, h12'.symm, h13'.symm]

theorem withCtr_rfc_12 (S : StateWords) (v : Nat) : (withCtr .rfc S v)[12] = BitVec.ofNat 32 v := by
  simp [withCtr]

theorem withCtr_ext_12 (S : StateWords) (v : Nat) : (withCtr .ext S v)[12] = BitVec.ofNat 32 v := by
  simp [withCtr]

theorem withCtr_ext_13 (S : StateWords) (v : Nat) : (withCtr .ext S v)[13] = BitVec.ofNat 32 (v / 2 ^ 32) := by
  simp [withCtr]

/-- The counter just placed is the counter read (R109, R110). -/
theorem ctr_withCtr (l : Layout) (S : StateWords) {v : Nat} (hv : v < 2 ^ l.cw) : ctr l (withCtr l S v) = v := by
  cases l with
  | rfc =>
    show (withCtr .rfc S v)[12].toNat = v
    rw [withCtr_rfc_12]
    simpa using Nat.mod_eq_of_lt hv
  | ext =>
    simp only [cw_ext] at hv
    rw [ctr_ext, withCtr_ext_12, withCtr_ext_13]
    simp only [BitVec.toNat_ofNat]
    omega

/-- Only the last counter placed counts. -/
theorem withCtr_withCtr (l : Layout) (S : StateWords) (v w : Nat) : withCtr l (withCtr l S v) w = withCtr l S w := by
  refine Vector.ext fun i hi => ?_
  cases l <;> simp only [withCtr, Vector.getElem_set] <;> split <;> (try split) <;> rfl

theorem withCtr_ctr (l : Layout) (S : StateWords) : withCtr l S (ctr l S) = S := by
  have hl := S[12].isLt
  have hh := S[13].isLt
  have h12 : BitVec.ofNat 32 (ctr l S) = S[12] := by
    cases l with
    | rfc => simp [ctr]
    | ext =>
      apply BitVec.eq_of_toNat_eq
      simp only [ctr_ext, BitVec.toNat_ofNat]
      omega
  cases l with
  | rfc =>
    rw [withCtr, h12]
    exact Vector.set_getElem_self _
  | ext =>
    have h13 : BitVec.ofNat 32 (ctr .ext S / 2 ^ 32) = S[13] := by
      apply BitVec.eq_of_toNat_eq
      simp only [ctr_ext, BitVec.toNat_ofNat]
      omega
    rw [withCtr, h12, h13, Vector.set_getElem_self, Vector.set_getElem_self]

theorem ctr_advance (l : Layout) (S : StateWords) (k : Nat) : ctr l (advance l S k) = (ctr l S + k) % 2 ^ l.cw :=
  ctr_withCtr l S (Nat.mod_lt _ (Nat.two_pow_pos _))

/-- Advancing leaves every word but the counter's (R27). -/
theorem getElem_advance (l : Layout) (S : StateWords) (k : Nat) (i : Fin 16) (h12 : i ≠ 12)
    (h13 : i ≠ 13 ∨ l = .rfc) : (advance l S k)[i] = S[i] := getElem_withCtr l S _ i h12 h13

theorem advance_advance (l : Layout) (S : StateWords) (a b : Nat) :
    advance l (advance l S a) b = advance l S (a + b) := by
  rw [advance, ctr_advance, advance, withCtr_withCtr, advance, Nat.mod_add_mod, Nat.add_assoc]

theorem advance_zero (l : Layout) (S : StateWords) : advance l S 0 = S := by
  rw [advance, Nat.add_zero, Nat.mod_eq_of_lt (ctr_lt l S), withCtr_ctr]

/-! ### The keystream -/

@[simp] theorem length_keyBlock (l : Layout) (S : StateWords) (r i : Nat) : (keyBlock l S r i).length = 64 :=
  length_block _ _

/-- Block i after k blocks is block k + i. -/
theorem keyBlock_advance (l : Layout) (S : StateWords) (r k i : Nat) :
    keyBlock l (advance l S k) r i = keyBlock l S r (k + i) := by
  rw [keyBlock, ctr_advance, advance, withCtr_withCtr, keyBlock, Nat.mod_add_mod, Nat.add_assoc]

theorem keyByte_eq (l : Layout) (S : StateWords) (r j : Nat) : keyByte l S r j = (keyBlock l S r (j / 64)).getD (j % 64) 0 :=
  rfl

/-- Byte j of the keystream after k blocks is byte 64k + j. -/
theorem keyByte_advance (l : Layout) (S : StateWords) (r k j : Nat) :
    keyByte l (advance l S k) r j = keyByte l S r (64 * k + j) := by
  rw [keyByte_eq, keyByte_eq, keyBlock_advance, Nat.mul_add_div (by decide), Nat.mul_add_mod]

theorem blocksFor_spec (n : Nat) : n ≤ 64 * blocksFor n := by
  unfold blocksFor
  omega

theorem length_keystream (l : Layout) (S : StateWords) (r n : Nat) : (keystream l S r n).length = n := by
  rw [keystream, List.length_take, length_flatMap_of_length (length_keyBlock l S r), List.length_range]
  exact Nat.min_eq_left (blocksFor_spec n)

/-- Byte j of the keystream (R112). -/
theorem getElem?_keystream (l : Layout) (S : StateWords) (r : Nat) {n j : Nat} (h : j < n) :
    (keystream l S r n)[j]? = some (keyByte l S r j) := by
  have hb := blocksFor_spec n
  rw [keystream, List.getElem?_take_of_lt h,
    getElem?_flatMap_of_length (length_keyBlock l S r) _ _ (by simp; omega)]
  have hj : j / 64 < blocksFor n := by omega
  rw [List.getElem?_range hj, Option.bind_some, keyByte_eq]
  have hlt : j % 64 < (keyBlock l S r (j / 64)).length := by simp; omega
  rw [List.getD_eq_getElem?_getD, List.getElem?_eq_getElem hlt, Option.getD_some]

/-- A list of n bytes with the keystream's bytes is the keystream. -/
theorem eq_keystream {l : Layout} {S : StateWords} {r n : Nat} {ks : List Byte} (hl : ks.length = n)
    (h : ∀ j < n, ks[j]? = some (keyByte l S r j)) : ks = keystream l S r n := by
  refine List.ext_getElem? fun j => ?_
  rcases Nat.lt_or_ge j n with hj | hj
  · rw [h j hj, getElem?_keystream l S r hj]
  · rw [List.getElem?_eq_none (by omega), List.getElem?_eq_none (by rw [length_keystream]; exact hj)]

/-- The keystream cut at a whole block: the rest is the keystream from the advanced counter. -/
theorem keystream_add (l : Layout) (S : StateWords) (r k n : Nat) :
    keystream l S r (64 * k + n) = keystream l S r (64 * k) ++ keystream l (advance l S k) r n := by
  symm
  refine eq_keystream (by simp [length_keystream]) fun j hj => ?_
  rw [List.getElem?_append, length_keystream]
  split
  · next h => exact getElem?_keystream l S r h
  · next h =>
    rw [getElem?_keystream _ _ _ (by omega), keyByte_advance]
    congr 2
    omega

theorem keystream_take (l : Layout) (S : StateWords) (r : Nat) {k n : Nat} (h : k ≤ n) :
    keystream l S r k = (keystream l S r n).take k := by
  symm
  refine eq_keystream (by simp [length_keystream, h]) fun j hj => ?_
  rw [List.getElem?_take_of_lt hj, getElem?_keystream _ _ _ (by omega)]

theorem blocksFor_mul (k : Nat) : blocksFor (64 * k) = k := by
  unfold blocksFor
  omega

theorem blocksFor_add (k n : Nat) : blocksFor (64 * k + n) = k + blocksFor n := by
  unfold blocksFor
  omega

end Sys2Proof.Machine
end

