-- ==== Sys2Proof/Laws/Meanings.lean ====
section
/-! SUPPORT. Every command's meaning as its checks and its effect, said once, and what the two kinds of effect do. -/

namespace Sys2Proof.Machine

/-- The checks of each command, in order (R201). -/
def checksOf : Instr → State → List (Bool × FaultCode)
  | .setupRfc, s => accessChecks s.cfg [⟨keyAddr s, 32⟩, ⟨nonceAddr s, 12⟩] []
  | .setupExt k, s => (k && s.cfg.key128.isNone, .badKeybits) :: accessChecks s.cfg [⟨keyAddr s, keyLen k⟩] []
  | .blockS r, s => (oddRounds r, .badRounds) :: ((1 : Nat) == 0, .unavailable) :: (!s.valid, .notInit) ::
      accessChecks s.cfg [⟨inAddr s, 64 * 1⟩] [⟨outAddr s, 64 * 1⟩]
  | .blockA r, s => (oddRounds r, .badRounds) :: (s.cfg.strideA.val == 0, .unavailable) :: (!s.valid, .notInit) ::
      accessChecks s.cfg [⟨inAddr s, 64 * s.cfg.strideA⟩] [⟨outAddr s, 64 * s.cfg.strideA⟩]
  | .blockB r, s => (oddRounds r, .badRounds) :: (s.cfg.strideB.val == 0, .unavailable) :: (!s.valid, .notInit) ::
      accessChecks s.cfg [⟨inAddr s, 64 * s.cfg.strideB⟩] [⟨outAddr s, 64 * s.cfg.strideB⟩]
  | .encrypt r, s => (oddRounds r, .badRounds) :: (!s.valid, .notInit) ::
      accessChecks s.cfg [⟨inAddr s, byteCount s⟩] [⟨outAddr s, byteCount s⟩]

/-- The effect of each command when its checks pass; ERR aside. -/
def effectOf : Instr → State → State
  | .setupRfc, s => setUp .rfc (rfcWords s) s
  | .setupExt k, s => setUp .ext (extWords k s) s
  | .blockS r, s => produce r (64 * 1) 1 s
  | .blockA r, s => produce r (64 * s.cfg.strideA) s.cfg.strideA s
  | .blockB r, s => produce r (64 * s.cfg.strideB) s.cfg.strideB s
  | .encrypt r, s => produce r (byteCount s) (blocksFor (byteCount s)) s

/-- Every command is its checks and its effect. -/
theorem exec_eq_finish (i : Instr) (s : State) : exec i s = finish s (checksOf i s) (effectOf i s) := by
  cases i <;> rfl

/-- What a command can do, said once: fault and record it, or complete with its effect. -/
theorem exec_cases {i : Instr} {s t : State} (h : exec i s = .next t) :
    (∃ f, firstFault (checksOf i s) = some f ∧ t = raise f s) ∨
    (firstFault (checksOf i s) = none ∧ t = complete (effectOf i s)) := by
  rw [exec_eq_finish] at h
  rcases finish_cases s (effectOf i s) (checksOf i s) with ⟨f, hf, he⟩ | ⟨hn, he⟩
  · exact .inl ⟨f, hf, by rw [he] at h; exact (Host.Outcome.next.inj h).symm⟩
  · exact .inr ⟨hn, by rw [he] at h; exact (Host.Outcome.next.inj h).symm⟩

theorem exec_of_pass {i : Instr} {s : State} (h : firstFault (checksOf i s) = none) :
    exec i s = .next (complete (effectOf i s)) := by
  rw [exec_eq_finish, finish_pass h]

theorem exec_of_fault {i : Instr} {s : State} {f : FaultCode} (h : firstFault (checksOf i s) = some f) :
    exec i s = .next (raise f s) := by
  rw [exec_eq_finish, finish_fault h]

/-- A command that leaves ERR 0 has completed. -/
theorem completed_of_ok {i : Instr} {s t : State} (h : exec i s = .next t) (ht : t.err = .ok) :
    firstFault (checksOf i s) = none ∧ t = complete (effectOf i s) := by
  rcases exec_cases h with ⟨f, -, rfl⟩ | h
  · simp at ht
  · exact h

/-! ### When the checks pass -/

theorem checks_setupRfc (s : State) : firstFault (checksOf .setupRfc s) = none ↔
    Reachable s.cfg s.a0.toNat 32 ∧ Reachable s.cfg s.a1.toNat 12 := by
  rw [checksOf, accessChecks_read]
  simp [keyAddr, nonceAddr]

theorem checks_setupExt (k : Bool) (s : State) : firstFault (checksOf (.setupExt k) s) = none ↔
    (k = true → s.cfg.key128 ≠ none) ∧ Reachable s.cfg s.a0.toNat (keyLen k) := by
  have h : (k && s.cfg.key128.isNone) = false ↔ (k = true → s.cfg.key128 ≠ none) := by
    cases k <;> cases hk : s.cfg.key128 <;> simp
  rw [← h, checksOf]
  cases k && s.cfg.key128.isNone
  · rw [firstFault_false, accessChecks_read]
    simp [keyAddr]
  · simp

/-- The checks of a block producer pass: an even round count, an available backend, a State set up, admitted buffers. -/
theorem checks_stream {r len : Nat} {avail : Bool} {s : State} :
    firstFault ((oddRounds r, .badRounds) :: (avail, .unavailable) :: (!s.valid, .notInit) ::
      accessChecks s.cfg [⟨inAddr s, len⟩] [⟨outAddr s, len⟩]) = none ↔
    r % 2 = 0 ∧ avail = false ∧ s.valid = true ∧ BuffersOk s len := by
  rw [← accessChecks_stream]
  have hr : oddRounds r = false ↔ r % 2 = 0 := by
    simp [oddRounds]
  rw [← hr]
  cases oddRounds r <;> cases avail <;> cases s.valid <;> simp

theorem checks_encrypt (r : Nat) (s : State) : firstFault (checksOf (.encrypt r) s) = none ↔
    r % 2 = 0 ∧ s.valid = true ∧ BuffersOk s s.a2.toNat := by
  have := checks_stream (r := r) (len := byteCount s) (avail := false) (s := s)
  simp only [firstFault, Bool.false_eq_true, if_false] at this
  simp only [checksOf, firstFault]
  rw [this]
  simp [byteCount]

theorem checks_blockS (r : Nat) (s : State) : firstFault (checksOf (.blockS r) s) = none ↔
    r % 2 = 0 ∧ s.valid = true ∧ BuffersOk s 64 := by
  rw [checksOf, checks_stream]
  simp

theorem checks_blockA (r : Nat) (s : State) : firstFault (checksOf (.blockA r) s) = none ↔
    r % 2 = 0 ∧ s.cfg.strideA.val ≠ 0 ∧ s.valid = true ∧ BuffersOk s (64 * s.cfg.strideA) := by
  rw [checksOf, checks_stream]
  simp

theorem checks_blockB (r : Nat) (s : State) : firstFault (checksOf (.blockB r) s) = none ↔
    r % 2 = 0 ∧ s.cfg.strideB.val ≠ 0 ∧ s.valid = true ∧ BuffersOk s (64 * s.cfg.strideB) := by
  rw [checksOf, checks_stream]
  simp

/-! ### What production does to memory -/

/-- The bytes a block producer writes. -/
theorem getElem?_produced (s : State) (r : Nat) {len j : Nat} (h : j < len) :
    (xorBytes (s.mem.readBytes (inAddr s) len) (keystream s.layout s.S r len))[j]? =
      some (s.mem.read (inAddr s + j) ^^^ keyByte s.layout s.S r j) := by
  refine getElem?_xorBytes ?_ (getElem?_keystream _ _ _ h)
  rw [Memory.getElem?_readBytes, if_pos h]

theorem length_produced (s : State) (r len : Nat) :
    (xorBytes (s.mem.readBytes (inAddr s) len) (keystream s.layout s.S r len)).length = len := by
  simp [length_xorBytes, length_keystream]

/-- Production leaves every byte outside the output range (R66). -/
theorem produce_mem_outside (r len n : Nat) (s : State) {a : Nat} (h : a < outAddr s ∨ outAddr s + len ≤ a) :
    (produce r len n s).mem.read a = s.mem.read a := by
  rw [produce_mem]
  exact Memory.read_writeBytes_outside _ _ (by rwa [length_produced])

/-- Production writes input XOR keystream (R70, R140, R161). -/
theorem produce_mem_inside (r len n : Nat) {s : State} (hm : s.mem.wf) {j : Nat} (h : j < len) :
    (produce r len n s).mem.read (outAddr s + j) = s.mem.read (inAddr s + j) ^^^ keyByte s.layout s.S r j := by
  rw [produce_mem]
  exact Memory.read_writeBytes_inside hm (getElem?_produced s r h)

theorem produce_wf (r len n : Nat) {s : State} (hm : s.mem.wf) : (produce r len n s).mem.wf := by
  rw [produce_mem]
  exact Memory.writeBytes_wf hm _ _

theorem produce_xorInto (r len n : Nat) {s : State} (hm : s.mem.wf) :
    XorInto s.mem (produce r len n s).mem s.a0.toNat s.a1.toNat len (keyByte s.layout s.S r) :=
  ⟨fun _ hj => produce_mem_inside r len n hm hj, fun _ ha => produce_mem_outside r len n s ha⟩

end Sys2Proof.Machine
end

