-- ==== Sys2Proof/Laws/Causes.lean ====
section
/-! SUPPORT. Each check of a command is one cause of rule R200, in rising order of the codes. -/

namespace Sys2Proof.Machine

/-- RANGE, OVERLAP and BUS. -/
theorem accessChecks_mem (c : Config) (rd wr : List Span) (f : FaultCode) :
    (true, f) ∈ accessChecks c rd wr ↔
      (f = .range ∧ ∃ p ∈ rd ++ wr, ¬ InSpace c p.base p.len) ∨
      (f = .overlap ∧ ∃ i ∈ rd, ∃ o ∈ wr, i.clashes o = true) ∨
      (f = .bus ∧ ∃ p ∈ rd ++ wr, ¬ Backed c p.base p.len) := by
  simp only [accessChecks, List.mem_cons, List.not_mem_nil, or_false, Prod.mk.injEq, eq_comm (a := true), List.any_eq_true,
    Bool.not_eq_true', ← Bool.not_eq_true, inSpace_iff, backed_iff]
  simp only [and_comm]

theorem clashes_same (i o len : Nat) : Span.clashes ⟨i, len⟩ ⟨o, len⟩ = true ↔ ¬ NoClash i o len := by
  rw [← clashes_iff_noClash, Bool.not_eq_false]

/-- The BUS check, asked of the footprint byte by byte. -/
theorem bus_iff (c : Config) (ps : List Span) : (∃ p ∈ ps, ¬ Backed c p.base p.len) ↔ ∃ a, InFootprint ps a ∧ memOK c a = false := by
  simp only [not_backed_iff, InFootprint]
  constructor
  · rintro ⟨p, hp, a, h1, h2, h3⟩; exact ⟨a, ⟨p, hp, h1, h2⟩, h3⟩
  · rintro ⟨a, ⟨p, hp, h1, h2⟩, h3⟩; exact ⟨p, hp, a, h1, h2, h3⟩

/-- A check that fails is a cause that holds (R200). -/
theorem mem_checksOf (i : Instr) (s : State) (f : FaultCode) : (true, f) ∈ checksOf i s ↔ Cause i s f := by
  have hodd : ∀ r, oddRounds r = true ↔ r % 2 = 1 := fun r => by simp [oddRounds]
  cases i <;> simp only [checksOf, List.mem_cons, accessChecks_mem, bus_iff, Prod.mk.injEq] <;> cases f <;>
    simp [Cause, reads, writes, Instr.rounds?, stride?, hodd, keyAddr, nonceAddr, inAddr, outAddr, keyLen, clashes_same, byteCount, eq_comm (a := true)]
  all_goals (rename_i k; cases k <;> simp)

/-- The codes of a command's checks rise (R201). -/
theorem checksOf_pairwise (i : Instr) (s : State) : (checksOf i s).Pairwise (fun x y => x.2.code < y.2.code) := by
  cases i <;> simp [checksOf, accessChecks, FaultCode.code]

/-- The reported code is the smallest of the checks that fail (R201). -/
theorem firstFault_eq_some_iff {cs : List (Bool × FaultCode)} (hp : cs.Pairwise (fun x y => x.2.code < y.2.code)) (f : FaultCode) :
    firstFault cs = some f ↔ (true, f) ∈ cs ∧ ∀ g, (true, g) ∈ cs → f.code ≤ g.code := by
  induction cs with
  | nil => simp
  | cons c cs ih =>
    obtain ⟨b, e⟩ := c
    obtain ⟨h1, h2⟩ := List.pairwise_cons.1 hp
    cases b
    · simp [ih h2]
    · simp only [firstFault_true, List.mem_cons, Prod.mk.injEq, true_and, Option.some.injEq]
      constructor
      · rintro rfl
        refine ⟨.inl rfl, ?_⟩
        rintro g (rfl | hg)
        · exact BitVec.le_refl _
        · exact BitVec.le_of_lt (h1 _ hg)
      · rintro ⟨h | h, h'⟩
        · exact h.symm
        · have a := h1 _ h
          have b := h' e (.inl rfl)
          simp only at a
          exact absurd a (BitVec.not_lt.2 b)

theorem effectOf_err (i : Instr) (s : State) : (effectOf i s).err = s.err := by cases i <;> rfl

theorem effectOf_first (i : Instr) (s : State) : (effectOf i s).first = s.first := by cases i <;> rfl

theorem effectOf_frame (i : Instr) (s : State) : (effectOf i s) = { s with S := (effectOf i s).S, mem := (effectOf i s).mem, valid := (effectOf i s).valid, layout := (effectOf i s).layout } := by cases i <;> simp only [effectOf, setUp, produce]

end Sys2Proof.Machine
end

