-- ==== Sys2Proof/Laws/Decode.lean ====
section
/-! SUPPORT. The command word's fields, the encoder's words and the rows' masks as numbers. -/

namespace Sys2Proof

/-! ### Fields -/

theorem opField_toNat (v : Word) : (opField v).toNat = v.toNat % 256 := by
  simp [opField, BitVec.extractLsb'_toNat]

theorem roundsField_eq (v : Word) : roundsField v = v.toNat / 2 ^ 8 % 256 := by
  simp [roundsField, BitVec.extractLsb'_toNat, Nat.shiftRight_eq_div_pow]

theorem k128Field_eq (v : Word) : k128Field v = (v.toNat / 2 ^ 16 % 2 == 1) := by
  simp [k128Field, BitVec.getLsbD, Nat.testBit, Nat.shiftRight_eq_div_pow]

theorem opField_eq_iff (v : Word) (op : Byte) : opField v = op ↔ v.toNat % 256 = op.toNat := by
  rw [← opField_toNat, BitVec.toNat_inj]

theorem reservedS_eq_false (v : Word) : reservedS v = false ↔ v.toNat / 2 ^ 8 = 0 := by
  have := v.isLt
  simp only [reservedS, bne_eq_false_iff_eq, ← BitVec.toNat_inj, BitVec.extractLsb'_toNat, Nat.shiftRight_eq_div_pow]
  simp
  omega

theorem reservedR_eq_false (v : Word) : reservedR v = false ↔ v.toNat / 2 ^ 16 = 0 := by
  have := v.isLt
  simp only [reservedR, bne_eq_false_iff_eq, ← BitVec.toNat_inj, BitVec.extractLsb'_toNat, Nat.shiftRight_eq_div_pow]
  simp
  omega

theorem reservedE_eq_false (v : Word) : reservedE v = false ↔ v.toNat / 2 ^ 17 = 0 ∧ v.toNat / 2 ^ 8 % 256 = 0 := by
  have := v.isLt
  simp only [reservedE, Bool.or_eq_false_iff, bne_eq_false_iff_eq, ← BitVec.toNat_inj, BitVec.extractLsb'_toNat,
    Nat.shiftRight_eq_div_pow]
  simp
  omega

theorem accept_eq_ok {b : Bool} {i j : Instr} : accept b i = .ok j ↔ b = false ∧ i = j := by
  cases b <;> simp [accept]

theorem accept_eq_ite {b : Bool} {p : Prop} [Decidable p] (i : Instr) (h : b = false ↔ p) :
    accept b i = if p then .ok i else .error .reservedBits := by
  cases b <;> by_cases hp : p <;> simp_all [accept]

/-- What a word that decodes is, case by case (R88). -/
theorem decode_eq_ok {v : Word} {i : Instr} (h : decode v = .ok i) :
    (opField v = 0x01 ∧ reservedS v = false ∧ i = .setupRfc) ∨
    (opField v = 0x02 ∧ reservedE v = false ∧ i = .setupExt (k128Field v)) ∨
    (opField v = 0x10 ∧ reservedR v = false ∧ i = .blockS (roundsField v)) ∨
    (opField v = 0x11 ∧ reservedR v = false ∧ i = .blockA (roundsField v)) ∨
    (opField v = 0x12 ∧ reservedR v = false ∧ i = .blockB (roundsField v)) ∨
    (opField v = 0x20 ∧ reservedR v = false ∧ i = .encrypt (roundsField v)) := by
  unfold decode at h
  split_ifs at h with h1 h2 h3 h4 h5 h6 <;> (rw [accept_eq_ok] at h; obtain ⟨hr, rfl⟩ := h; simp [*])

/-! ### The encoder's words as numbers (R82 to R84) -/

theorem encodeS_toNat (op : Byte) : (encodeS op).toNat = op.toNat := by
  show (0#24 ++ op : BitVec (24 + 8)).toNat = _
  rw [BitVec.toNat_append]
  simp

theorem encodeE_toNat (op : Byte) (k : Bool) : (encodeE op k).toNat = 2 ^ 16 * k.toNat + op.toNat := by
  have := op.isLt
  show ((((0#15 ++ BitVec.ofBool k : BitVec 16) ++ 0#8 : BitVec 24) ++ op : BitVec (24 + 8)).toNat) = _
  rw [BitVec.toNat_append, ← Nat.shiftLeft_add_eq_or_of_lt this]
  cases k <;> simp [Nat.shiftLeft_eq]

theorem encodeR_toNat (op : Byte) {r : Nat} (hr : r ≤ 255) : (encodeR op r).toNat = 2 ^ 8 * r + op.toNat := by
  have := op.isLt
  show (((0#16 ++ BitVec.ofNat 8 r : BitVec 24) ++ op : BitVec (24 + 8)).toNat) = _
  rw [BitVec.toNat_append, ← Nat.shiftLeft_add_eq_or_of_lt this, BitVec.toNat_append]
  simp [Nat.shiftLeft_eq, Nat.mod_eq_of_lt (show r < 256 by omega), Nat.mul_comm]

/-! ### The rows' masks (spec/opcode_table.json) -/

theorem and_mask_setupRfc (v : Word) : v &&& 0xFFFFFFFF = v := by
  have : (0xFFFFFFFF : Word) = BitVec.allOnes 32 := by decide
  rw [this, BitVec.and_allOnes]

/-- A mask of high and low ones keeps the high and the low part of a number. -/
theorem and_highLow (n h m k : Nat) (hk : k ≤ h) (hm : n < 2 ^ (h + m)) :
    n &&& (((2 ^ m - 1) <<< h) ||| (2 ^ k - 1)) = 2 ^ h * (n / 2 ^ h) + n % 2 ^ k := by
  have h1 : n &&& ((2 ^ m - 1) <<< h) = (n / 2 ^ h) <<< h := by
    refine Nat.eq_of_testBit_eq fun i => ?_
    simp only [Nat.testBit_and, Nat.testBit_shiftLeft, Nat.testBit_two_pow_sub_one, Nat.testBit_div_two_pow]
    by_cases hi : h ≤ i
    · have : i - h + h = i := by omega
      by_cases hlt : i - h < m
      · simp [hi, hlt, this]
      · have : n.testBit i = false := Nat.testBit_lt_two_pow (hm.trans_le (Nat.pow_le_pow_right (by decide) (by omega)))
        simp [*]
    · simp [hi]
  have h2 : n % 2 ^ k < 2 ^ h := (Nat.mod_lt _ (Nat.two_pow_pos k)).trans_le (Nat.pow_le_pow_right (by decide) hk)
  rw [Nat.and_or_distrib_left, h1, Nat.and_two_pow_sub_one_eq_mod, ← Nat.shiftLeft_add_eq_or_of_lt h2, Nat.shiftLeft_eq,
    Nat.mul_comm]

theorem and_mask_roundsRow (v : Word) :
    (v &&& 0xFFFF00FF).toNat = 2 ^ 16 * (v.toNat / 2 ^ 16) + v.toNat % 2 ^ 8 := by
  rw [BitVec.toNat_and]
  exact and_highLow v.toNat 16 16 8 (by decide) v.isLt

theorem and_mask_extRow (v : Word) :
    (v &&& 0xFFFEFFFF).toNat = 2 ^ 17 * (v.toNat / 2 ^ 17) + v.toNat % 2 ^ 16 := by
  rw [BitVec.toNat_and]
  exact and_highLow v.toNat 17 15 16 (by decide) v.isLt

end Sys2Proof
end

