-- ==== Sys2Proof/Laws/Step.lean ====
section
/-! SUPPORT. What a step can do, said once. -/

namespace Sys2Proof.Machine

/-! ### The register map -/

theorem ofOffset_offset (reg : Reg) : Reg.ofOffset reg.offset = some reg := by
  cases reg with
  | reserved i => fin_cases i <;> rfl
  | word i => fin_cases i <;> rfl
  | _ => rfl

theorem ofOffset_eq_none {off : Nat} : Reg.ofOffset off = none ↔ off % 4 ≠ 0 ∨ 0x080 ≤ off := by
  unfold Reg.ofOffset
  split
  · next h => simp [h]
  · next h =>
    have h : off % 4 = 0 := by omega
    split <;> (try simp) <;> (try omega)
    simp only [imp_false] at *
    split
    · simp; omega
    · split
      · simp; omega
      · simp; omega

theorem offset_of_ofOffset {off : Nat} {reg : Reg} (h : Reg.ofOffset off = some reg) : off = reg.offset := by
  unfold Reg.ofOffset at h
  split at h
  · cases h
  · next h4 =>
    have h4 : off % 4 = 0 := by omega
    split at h <;> (try (cases h; simp only [Reg.offset]; omega))
    split at h
    · cases h
      simp only [imp_false, Reg.offset] at *
      omega
    · split at h
      · cases h
        simp only [imp_false, Reg.offset] at *
        omega
      · cases h

theorem ofOffset_eq_cmd {off : Nat} : Reg.ofOffset off = some .cmd ↔ off = 0 :=
  ⟨fun h => by simpa [Reg.offset] using offset_of_ofOffset h, fun h => by subst h; rfl⟩

/-! ### The step -/

/-- Issuing a word: a rejected word records its fault, a decoded one is its command (R29). -/
theorem issue_cases {v : Word} {s t : State} (h : issue v s = .next t) :
    (∃ e, decode v = .error e ∧ t = raise (rejectFault e) s) ∨ ∃ i, decode v = .ok i ∧ exec i s = .next t := by
  unfold issue at h
  split at h
  · next i hi => exact .inr ⟨i, hi, h⟩
  · next e he => exact .inl ⟨e, he, (Host.Outcome.next.inj h).symm⟩

theorem hostMemFault_eq_none {c : Config} {addr n : Nat} : hostMemFault c addr n = none ↔
    ∀ a, addr ≤ a → a < addr + n → a < 2 ^ c.addrW ∧ memOK c a = true := by
  induction n generalizing addr with
  | zero => simp [hostMemFault]; omega
  | succ n ih =>
    rw [hostMemFault]
    constructor
    · intro h a h1 h2
      split at h
      · cases h
      · next hs =>
        split at h
        · cases h
        · next hb =>
          rcases Nat.eq_or_lt_of_le h1 with rfl | hlt
          · exact ⟨by omega, by simpa using hb⟩
          · exact ih.1 h a (by omega) (by omega)
    · intro h
      have h0 := h addr (by omega) (by omega)
      rw [if_neg (by omega), if_neg (by simp [h0.2])]
      exact ih.2 fun a h1 h2 => h a (by omega) (by omega)

/-- A host access to memory stops at the first byte it cannot reach (log 9). -/
theorem hostMemFault_eq_some {c : Config} {a : Nat} : ∀ {n addr : Nat}, addr ≤ a → a < addr + n →
    (∀ b, addr ≤ b → b < a → b < 2 ^ c.addrW ∧ memOK c b = true) →
    (2 ^ c.addrW ≤ a → hostMemFault c addr n = some (.outsideBuffer a)) ∧
    (a < 2 ^ c.addrW → memOK c a = false → hostMemFault c addr n = some (.unbackedByte a)) := by
  intro n
  induction n with
  | zero => omega
  | succ n ih =>
    intro addr h1 h2 h
    rw [hostMemFault]
    rcases Nat.eq_or_lt_of_le h1 with rfl | hlt
    · exact ⟨fun ho => if_pos ho, fun hi hb => by rw [if_neg (by omega), if_pos (by simp [hb])]⟩
    · have h0 := h addr (by omega) hlt
      rw [if_neg (by omega), if_neg (by simp [h0.2])]
      exact ih (by omega) (by omega) fun b hb hb' => h b (by omega) hb'

/-- What an action of the host can do: issue a command, write a register, read a register or a byte, write memory that
exists and is backed, or reset the block. -/
theorem hostAction_cases {op : HostOp} {s t : State} (h : hostAction op s = .next t) :
    (∃ v, op = .wr 0x000 v ∧ issue v s = .next t) ∨
    (∃ off v reg, op = .wr off v ∧ reg ≠ .cmd ∧ off = reg.offset ∧ t = regWrite v s reg) ∨
    (∃ ans, (∃ off, op = .rd off) ∧ t = { s with answers := ans :: s.answers }) ∨
    (∃ addr bytes, op = .memWr addr bytes ∧ hostMemFault s.cfg addr bytes.length = none ∧
      t = { s with mem := s.mem.writeBytes addr bytes }) ∨
    (∃ ans, (∃ addr, op = .memRd addr) ∧ t = { s with answers := ans :: s.answers }) ∨
    (op = .reset ∧ t = resetBlock s) := by
  cases op with
  | wr off v =>
    simp only [hostAction, hostWrite] at h
    split at h
    · cases h
    · next hr => exact .inl ⟨v, by rw [ofOffset_eq_cmd.1 hr], h⟩
    · next reg hne hr =>
      refine .inr (.inl ⟨off, v, reg, rfl, ?_, offset_of_ofOffset hr, (Host.Outcome.next.inj h).symm⟩)
      rintro rfl
      exact hne rfl
  | rd off =>
    simp only [hostAction, hostRead] at h
    split at h
    · cases h
    · exact .inr (.inr (.inl ⟨_, ⟨off, rfl⟩, (Host.Outcome.next.inj h).symm⟩))
  | memWr addr bytes =>
    simp only [hostAction, hostMemWrite] at h
    split at h
    · cases h
    · next hf => exact .inr (.inr (.inr (.inl ⟨addr, bytes, rfl, hf, (Host.Outcome.next.inj h).symm⟩)))
  | memRd addr =>
    simp only [hostAction, hostMemRead] at h
    split at h
    · cases h
    · exact .inr (.inr (.inr (.inr (.inl ⟨_, ⟨addr, rfl⟩, (Host.Outcome.next.inj h).symm⟩))))
  | reset => exact .inr (.inr (.inr (.inr (.inr ⟨rfl, (Host.Outcome.next.inj h).symm⟩))))

/-- A step waits when no action is pending, and otherwise performs the first one. -/
theorem step_cases {s t : State} (h : step s = .next t) :
    (s.host = [] ∧ t = s) ∨ ∃ op rest, s.host = op :: rest ∧ hostAction op { s with host := rest } = .next t := by
  unfold step nextAction at h
  split at h
  · next hh => exact .inl ⟨hh, (Host.Outcome.next.inj h).symm⟩
  · next op rest hh => exact .inr ⟨op, rest, hh, h⟩

theorem step_of_host {s : State} {op : HostOp} {rest : List HostOp} (h : s.host = op :: rest) :
    step s = hostAction op { s with host := rest } := by
  unfold step nextAction
  rw [h]

/-- A write to a register other than CMD is one step. -/
theorem step_of_regWrite {s : State} {reg : Reg} {v : Word} {rest : List HostOp} (hc : reg ≠ .cmd)
    (h : s.host = .wr reg.offset v :: rest) : step s = .next (regWrite v { s with host := rest } reg) := by
  rw [step_of_host h]
  simp only [hostAction, hostWrite, ofOffset_offset]

/-! ### A register write touches only the argument registers -/

theorem regWrite_frame (v : Word) (s : State) (reg : Reg) :
    regWrite v s reg = { s with a0 := (regWrite v s reg).a0, a1 := (regWrite v s reg).a1, a2 := (regWrite v s reg).a2 } := by
  cases reg <;> rfl

theorem loHalf_append (h l : Word) : loHalf (h ++ l : DWord) = l :=
  BitVec.extractLsb'_append_eq_right

theorem hiHalf_append (h l : Word) : hiHalf (h ++ l : DWord) = h :=
  BitVec.extractLsb'_append_eq_left

/-- An argument register is its two halves (R28). -/
theorem halves_append (v : DWord) : (hiHalf v ++ loHalf v : DWord) = v := by
  refine BitVec.eq_of_toNat_eq ?_
  have := v.isLt
  show (hiHalf v ++ loHalf v : BitVec (32 + 32)).toNat = _
  rw [BitVec.toNat_append, ← Nat.shiftLeft_add_eq_or_of_lt (loHalf v).isLt, Nat.shiftLeft_eq]
  simp only [hiHalf, loHalf, BitVec.extractLsb'_toNat, Nat.shiftRight_eq_div_pow]
  omega

end Sys2Proof.Machine
end

