-- ==== Sys2Proof/Laws/HostProgram.lean ====
section
/-! SUPPORT. Command lines: what a count's digits are read as, which counts are read, and how a line splits (R91); and runs
of several steps. -/

namespace Sys2Proof.Machine

/-! ### Digits -/

theorem digitValue_digitChar {d : Nat} (h : d < 16) : digitValue d.digitChar = some d := by
  interval_cases d <;> rfl

/-- The characters that are digits in some base of R91, and the value of the decimal ones. -/
theorem digitValue_cases {c : Char} {d : Nat} (h : digitValue c = some d) :
    (c.isDigit = true ∧ d < 10) ∨ (c ∈ "abcdefABCDEF".toList ∧ 10 ≤ d) := by
  have hletter : ∀ n ∈ ["abcdefABCDEF".toList.map Char.toNat], c.toNat ∈ n → c ∈ "abcdefABCDEF".toList := by
    intro n hn hc
    rw [List.mem_singleton.1 hn, List.mem_map] at hc
    obtain ⟨e, he, hec⟩ := hc
    rwa [← Char.toNat_inj.1 hec]
  have hmem : ∀ k : Nat, (97 ≤ k ∧ k ≤ 102) ∨ (65 ≤ k ∧ k ≤ 70) → k ∈ "abcdefABCDEF".toList.map Char.toNat := by
    rintro k (⟨h1, h2⟩ | ⟨h1, h2⟩) <;> interval_cases k <;> decide
  unfold digitValue at h
  split at h
  · next hr => cases h; exact .inl ⟨by simpa [Char.isDigit, UInt32.le_iff_toNat_le] using hr, by
      have := hr.2; change c.toNat ≤ 57 at this; change c.toNat - 48 < 10; omega⟩
  · split at h
    · next hr => cases h; exact .inr ⟨hletter _ (List.mem_singleton.2 rfl) (hmem _ (.inl hr)), by omega⟩
    · split at h
      · next hr => cases h; exact .inr ⟨hletter _ (List.mem_singleton.2 rfl) (hmem _ (.inr hr)), by omega⟩
      · cases h

theorem digits_cons {base acc v : Nat} {c : Char} {cs : List Char} (h : digits base (c :: cs) acc = some v) :
    ∃ d, digitValue c = some d ∧ d < base ∧ digits base cs (acc * base + d) = some v := by
  rw [digits] at h
  split at h
  · next d hd =>
    split at h
    · next hb => exact ⟨d, hd, hb, h⟩
    · cases h
  · cases h

theorem digitValue_of_digits {base : Nat} {cs : List Char} : ∀ {acc v : Nat}, digits base cs acc = some v →
    ∀ c ∈ cs, ∃ d, digitValue c = some d ∧ d < base := by
  induction cs with
  | nil => simp
  | cons c cs ih =>
    intro acc v h e he
    obtain ⟨d, hd, hb, hr⟩ := digits_cons h
    rcases List.mem_cons.1 he with rfl | he
    · exact ⟨d, hd, hb⟩
    · exact ih hr e he

/-- A digit more at the right end. -/
theorem digits_snoc {base d : Nat} (hb : base ≤ 16) (hd : d < base) (cs : List Char) : ∀ acc,
    digits base (cs ++ [d.digitChar]) acc = (digits base cs acc).map (· * base + d) := by
  induction cs with
  | nil => intro acc; simp [digits, digitValue_digitChar (hd.trans_le hb), hd]
  | cons c cs ih =>
    intro acc
    rw [List.cons_append, digits, digits]
    split
    · split
      · exact ih _
      · rfl
    · rfl

/-- A number's digits are read as the number. -/
theorem digits_toDigits {base : Nat} (h1 : 1 < base) (h16 : base ≤ 16) (n : Nat) :
    digits base (Nat.toDigits base n) 0 = some n := by
  induction n using Nat.strong_induction_on with
  | _ n ih =>
    by_cases h : n < base
    · rw [Nat.toDigits_of_lt_base h]
      simpa [digits] using digits_snoc h16 h [] 0
    · rw [Nat.toDigits_of_base_le h1 (by omega), digits_snoc h16 (Nat.mod_lt _ (by omega)),
        ih _ (Nat.div_lt_self (by omega) h1)]
      simp only [Option.map_some, Option.some.injEq]
      exact Nat.div_add_mod' n base

/-! ### Counts -/

theorem toDigits_cons (base n : Nat) : ∃ c cs, Nat.toDigits base n = c :: cs :=
  List.exists_cons_of_length_pos Nat.length_toDigits_pos

/-- A count in hexadecimal with `0x`. -/
theorem numeral_hex (n : Nat) : numeral ('0' :: 'x' :: Nat.toDigits 16 n) = some n := by
  have h := digits_toDigits (base := 16) (by decide) (by decide) n
  obtain ⟨c, cs, hc⟩ := toDigits_cons 16 n
  rw [hc] at h ⊢
  exact h

theorem numeral_eq_digits {cs : List Char} {v : Nat} (hn : cs ≠ []) (h : digits 10 cs 0 = some v) : numeral cs = some v := by
  unfold numeral
  split
  · exact absurd rfl hn
  · have hx := digitValue_of_digits h 'x' (by simp)
    exact absurd hx (by decide)
  · exact h

/-- A count in decimal. -/
theorem numeral_decimal (n : Nat) : numeral (Nat.toDigits 10 n) = some n := by
  refine numeral_eq_digits ?_ (digits_toDigits (by decide) (by decide) n)
  obtain ⟨c, cs, hc⟩ := toDigits_cons 10 n
  simp [hc]

/-- What is read as a count: a run of decimal digits, or `0x` and a run of hexadecimal digits. -/
theorem numeral_cases {count : List Char} {r : Nat} (h : numeral count = some r) :
    (count ≠ [] ∧ ∀ c ∈ count, c.isDigit) ∨
    ∃ hex, count = '0' :: 'x' :: hex ∧ hex ≠ [] ∧ ∀ c ∈ hex, c.isDigit ∨ c ∈ "abcdefABCDEF".toList := by
  unfold numeral at h
  split at h
  · cases h
  · next c cs =>
    refine .inr ⟨c :: cs, rfl, by simp, fun e he => ?_⟩
    obtain ⟨d, hd, -⟩ := digitValue_of_digits h e he
    exact (digitValue_cases hd).imp And.left And.left
  · next c cs _ =>
    refine .inl ⟨by simp, fun e he => ?_⟩
    obtain ⟨d, hd, hb⟩ := digitValue_of_digits h e he
    exact (digitValue_cases hd).elim And.left fun hl => by omega

/-! ### Lines -/

/-- A line is its mnemonic, or its mnemonic, a space and its operand. -/
theorem splitLine_join (line : List Char) :
    (∀ name, splitLine line = (name, none) → line = name) ∧
    ∀ name operand, splitLine line = (name, some operand) → line = name ++ ' ' :: operand := by
  induction line with
  | nil => simp [splitLine, eq_comm]
  | cons c cs ih =>
    by_cases h : c = ' '
    · subst h
      simp only [splitLine, Prod.mk.injEq, reduceCtorEq, and_false, false_implies, implies_true, true_and, Option.some.injEq]
      rintro name operand ⟨rfl, rfl⟩
      rfl
    · have e : splitLine (c :: cs) = (c :: (splitLine cs).1, (splitLine cs).2) := by
        rw [splitLine]
        exact fun h' => h h'
      rw [e]
      simp only [Prod.mk.injEq]
      refine ⟨?_, ?_⟩
      · rintro name ⟨rfl, h2⟩
        exact congrArg (c :: ·) (ih.1 _ (Prod.ext rfl h2))
      · rintro name operand ⟨rfl, h2⟩
        exact congrArg (c :: ·) (ih.2 _ _ (Prod.ext rfl h2))

/-- A mnemonic before the first space. -/
theorem splitLine_append {name : List Char} (h : ' ' ∉ name) (operand : List Char) :
    splitLine (name ++ ' ' :: operand) = (name, some operand) := by
  induction name with
  | nil => rfl
  | cons c cs ih =>
    rw [List.cons_append, splitLine, ih (fun hm => h (List.mem_cons_of_mem _ hm))]
    exact fun hc => h (hc ▸ List.mem_cons_self)

/-- A line of format R is its command at the count that its operand spells. -/
theorem parseCommand_rounds {name operand : List Char} {r : Nat} (hn : ' ' ∉ name) (hr : numeral operand = some r) :
    parseCommand (name ++ ' ' :: operand) = (roundCommands r).lookup name := by
  rw [parseCommand, splitLine_append hn]
  simp only [hr]

/-! ### Runs -/

/-- A run of any machine takes its first step and goes on from there. -/
theorem run_succ (M : Host.Core) {s t : M.State} {k : Nat} (h : M.step s = .next t) : M.run (k + 1) s = M.run k t := by
  rw [Host.Core.run, h]

/-- A run of one step is the step. -/
theorem run_single (M : Host.Core) (s : M.State) : M.run 1 s = M.step s := by
  rw [Host.Core.run]
  cases M.step s <;> rfl

theorem run_of_step {s t : State} {k : Nat} (h : step s = .next t) :
    Host.Core.run core (k + 1) s = Host.Core.run core k t := run_succ core h

theorem run_one (s : State) : Host.Core.run core 1 s = step s := run_single core s

/-- The halves of an argument register, written one after the other, are the whole register (R28). -/
theorem setHi_setLo (old v : DWord) : setHi (setLo old (loHalf v)) (hiHalf v) = v := by
  rw [setHi, setLo, loHalf_append, halves_append]

end Sys2Proof.Machine
end

