-- ==== Sys2Proof/Laws/Lanes.lean ====
section
/-! SUPPORT. The rounds and the lane operations on vectors written out lane by lane (R146, R147). -/

namespace Sys2Proof.Machine

/-! ### The rounds on a State written out -/

theorem stateWords_literal (x : StateWords) : ∃ x0 x1 x2 x3 x4 x5 x6 x7 x8 x9 x10 x11 x12 x13 x14 x15 : Word, x = #v[x0, x1, x2, x3, x4, x5, x6, x7, x8, x9, x10, x11, x12, x13, x14, x15] := by
  refine ⟨x[0],x[1],x[2],x[3],x[4],x[5],x[6],x[7],x[8],x[9],x[10],x[11],x[12],x[13],x[14],x[15], Vector.ext fun n hn => ?_⟩
  interval_cases n <;> rfl

theorem qrAt_column0 (x0 x1 x2 x3 x4 x5 x6 x7 x8 x9 x10 x11 x12 x13 x14 x15 : Word) : qrAt #v[x0, x1, x2, x3, x4, x5, x6, x7, x8, x9, x10, x11, x12, x13, x14, x15] 0 4 8 12 =
  #v[(qr x0 x4 x8 x12).1, x1, x2, x3, (qr x0 x4 x8 x12).2.1, x5, x6, x7, (qr x0 x4 x8 x12).2.2.1, x9, x10, x11, (qr x0 x4 x8 x12).2.2.2, x13, x14, x15] := rfl

theorem qrAt_column1 (x0 x1 x2 x3 x4 x5 x6 x7 x8 x9 x10 x11 x12 x13 x14 x15 : Word) : qrAt #v[x0, x1, x2, x3, x4, x5, x6, x7, x8, x9, x10, x11, x12, x13, x14, x15] 1 5 9 13 =
  #v[x0, (qr x1 x5 x9 x13).1, x2, x3, x4, (qr x1 x5 x9 x13).2.1, x6, x7, x8, (qr x1 x5 x9 x13).2.2.1, x10, x11, x12, (qr x1 x5 x9 x13).2.2.2, x14, x15] := rfl

theorem qrAt_column2 (x0 x1 x2 x3 x4 x5 x6 x7 x8 x9 x10 x11 x12 x13 x14 x15 : Word) : qrAt #v[x0, x1, x2, x3, x4, x5, x6, x7, x8, x9, x10, x11, x12, x13, x14, x15] 2 6 10 14 =
  #v[x0, x1, (qr x2 x6 x10 x14).1, x3, x4, x5, (qr x2 x6 x10 x14).2.1, x7, x8, x9, (qr x2 x6 x10 x14).2.2.1, x11, x12, x13, (qr x2 x6 x10 x14).2.2.2, x15] := rfl

theorem qrAt_column3 (x0 x1 x2 x3 x4 x5 x6 x7 x8 x9 x10 x11 x12 x13 x14 x15 : Word) : qrAt #v[x0, x1, x2, x3, x4, x5, x6, x7, x8, x9, x10, x11, x12, x13, x14, x15] 3 7 11 15 =
  #v[x0, x1, x2, (qr x3 x7 x11 x15).1, x4, x5, x6, (qr x3 x7 x11 x15).2.1, x8, x9, x10, (qr x3 x7 x11 x15).2.2.1, x12, x13, x14, (qr x3 x7 x11 x15).2.2.2] := rfl

theorem qrAt_diagonal0 (x0 x1 x2 x3 x4 x5 x6 x7 x8 x9 x10 x11 x12 x13 x14 x15 : Word) : qrAt #v[x0, x1, x2, x3, x4, x5, x6, x7, x8, x9, x10, x11, x12, x13, x14, x15] 0 5 10 15 =
  #v[(qr x0 x5 x10 x15).1, x1, x2, x3, x4, (qr x0 x5 x10 x15).2.1, x6, x7, x8, x9, (qr x0 x5 x10 x15).2.2.1, x11, x12, x13, x14, (qr x0 x5 x10 x15).2.2.2] := rfl

theorem qrAt_diagonal1 (x0 x1 x2 x3 x4 x5 x6 x7 x8 x9 x10 x11 x12 x13 x14 x15 : Word) : qrAt #v[x0, x1, x2, x3, x4, x5, x6, x7, x8, x9, x10, x11, x12, x13, x14, x15] 1 6 11 12 =
  #v[x0, (qr x1 x6 x11 x12).1, x2, x3, x4, x5, (qr x1 x6 x11 x12).2.1, x7, x8, x9, x10, (qr x1 x6 x11 x12).2.2.1, (qr x1 x6 x11 x12).2.2.2, x13, x14, x15] := rfl

theorem qrAt_diagonal2 (x0 x1 x2 x3 x4 x5 x6 x7 x8 x9 x10 x11 x12 x13 x14 x15 : Word) : qrAt #v[x0, x1, x2, x3, x4, x5, x6, x7, x8, x9, x10, x11, x12, x13, x14, x15] 2 7 8 13 =
  #v[x0, x1, (qr x2 x7 x8 x13).1, x3, x4, x5, x6, (qr x2 x7 x8 x13).2.1, (qr x2 x7 x8 x13).2.2.1, x9, x10, x11, x12, (qr x2 x7 x8 x13).2.2.2, x14, x15] := rfl

theorem qrAt_diagonal3 (x0 x1 x2 x3 x4 x5 x6 x7 x8 x9 x10 x11 x12 x13 x14 x15 : Word) : qrAt #v[x0, x1, x2, x3, x4, x5, x6, x7, x8, x9, x10, x11, x12, x13, x14, x15] 3 4 9 14 =
  #v[x0, x1, x2, (qr x3 x4 x9 x14).1, (qr x3 x4 x9 x14).2.1, x5, x6, x7, x8, (qr x3 x4 x9 x14).2.2.1, x10, x11, x12, x13, (qr x3 x4 x9 x14).2.2.2, x15] := rfl

theorem columnRound_literal (x0 x1 x2 x3 x4 x5 x6 x7 x8 x9 x10 x11 x12 x13 x14 x15 : Word) : columnRound #v[x0, x1, x2, x3, x4, x5, x6, x7, x8, x9, x10, x11, x12, x13, x14, x15] =
 #v[(qr x0 x4 x8 x12).1, (qr x1 x5 x9 x13).1, (qr x2 x6 x10 x14).1, (qr x3 x7 x11 x15).1, (qr x0 x4 x8 x12).2.1, (qr x1 x5 x9 x13).2.1, (qr x2 x6 x10 x14).2.1, (qr x3 x7 x11 x15).2.1, (qr x0 x4 x8 x12).2.2.1, (qr x1 x5 x9 x13).2.2.1, (qr x2 x6 x10 x14).2.2.1, (qr x3 x7 x11 x15).2.2.1, (qr x0 x4 x8 x12).2.2.2, (qr x1 x5 x9 x13).2.2.2, (qr x2 x6 x10 x14).2.2.2, (qr x3 x7 x11 x15).2.2.2] := by simp only [columnRound, qrAt_column0,qrAt_column1,qrAt_column2,qrAt_column3]

theorem diagonalRound_literal (x0 x1 x2 x3 x4 x5 x6 x7 x8 x9 x10 x11 x12 x13 x14 x15 : Word) : diagonalRound #v[x0, x1, x2, x3, x4, x5, x6, x7, x8, x9, x10, x11, x12, x13, x14, x15] =
 #v[(qr x0 x5 x10 x15).1, (qr x1 x6 x11 x12).1, (qr x2 x7 x8 x13).1, (qr x3 x4 x9 x14).1, (qr x3 x4 x9 x14).2.1, (qr x0 x5 x10 x15).2.1, (qr x1 x6 x11 x12).2.1, (qr x2 x7 x8 x13).2.1, (qr x2 x7 x8 x13).2.2.1, (qr x3 x4 x9 x14).2.2.1, (qr x0 x5 x10 x15).2.2.1, (qr x1 x6 x11 x12).2.2.1, (qr x1 x6 x11 x12).2.2.2, (qr x2 x7 x8 x13).2.2.2, (qr x3 x4 x9 x14).2.2.2, (qr x0 x5 x10 x15).2.2.2] := by simp only [diagonalRound, qrAt_diagonal0,qrAt_diagonal1,qrAt_diagonal2,qrAt_diagonal3]

/-! ### The lane operations -/

theorem toRows_literal (x0 x1 x2 x3 x4 x5 x6 x7 x8 x9 x10 x11 x12 x13 x14 x15 : Word) : toRows #v[x0, x1, x2, x3, x4, x5, x6, x7, x8, x9, x10, x11, x12, x13, x14, x15] = ⟨#v[x0, x1, x2, x3], #v[x4, x5, x6, x7], #v[x8, x9, x10, x11], #v[x12, x13, x14, x15]⟩ := rfl

theorem laneQr_literal (x0 x1 x2 x3 x4 x5 x6 x7 x8 x9 x10 x11 x12 x13 x14 x15 : Word) : laneQr (⟨#v[x0,x1,x2,x3],#v[x4,x5,x6,x7],#v[x8,x9,x10,x11],#v[x12,x13,x14,x15]⟩ : LaneRows 4) = ⟨#v[(qr x0 x4 x8 x12).1, (qr x1 x5 x9 x13).1, (qr x2 x6 x10 x14).1, (qr x3 x7 x11 x15).1], #v[(qr x0 x4 x8 x12).2.1, (qr x1 x5 x9 x13).2.1, (qr x2 x6 x10 x14).2.1, (qr x3 x7 x11 x15).2.1], #v[(qr x0 x4 x8 x12).2.2.1, (qr x1 x5 x9 x13).2.2.1, (qr x2 x6 x10 x14).2.2.1, (qr x3 x7 x11 x15).2.2.1], #v[(qr x0 x4 x8 x12).2.2.2, (qr x1 x5 x9 x13).2.2.2, (qr x2 x6 x10 x14).2.2.2, (qr x3 x7 x11 x15).2.2.2]⟩ := rfl

theorem rotLanes_one (a b c d : Word) : rotLanes #v[a,b,c,d] 1 = #v[b,c,d,a] := rfl

theorem rotLanes_two (a b c d : Word) : rotLanes #v[a,b,c,d] 2 = #v[c,d,a,b] := rfl

theorem rotLanes_three (a b c d : Word) : rotLanes #v[a,b,c,d] 3 = #v[d,a,b,c] := rfl

/-! ### Two blocks side by side (R147) -/

theorem laneQr_wideRows (x y : LaneRows 4) : laneQr (wideRows x y) = wideRows (laneQr x) (laneQr y) := by
  obtain ⟨a,b,c,d⟩ := x
  obtain ⟨a',b',c',d'⟩ := y
  simp only [laneQr, wideRows, LaneRows.mk.injEq]
  refine ⟨?_, ?_, ?_, ?_⟩ <;> refine Vector.ext fun n hn => ?_ <;> interval_cases n <;> rfl

theorem rotHalves_wideJoin (x y : Lanes 4) (n : Nat) : rotHalves (wideJoin x y) n = wideJoin (rotLanes x n) (rotLanes y n) := by
  have e : ∀ x : Lanes 4, x = #v[x[0],x[1],x[2],x[3]] := by 
    intro x
    refine Vector.ext fun n hn => ?_
    interval_cases n <;> rfl
  rw [rotHalves]
  congr 2
  · exact (e x).symm
  · exact (e y).symm

end Sys2Proof.Machine
end

