-- ==== Sys2Proof/Laws/Mixing.lean ====
section
/-! SUPPORT. Rotations, words as bytes, and the quarter-round on the State. -/

namespace Sys2Proof.Machine

/-! ### Rotations and bytes -/

/-- R100: the two shifts and the OR are a rotation. -/
theorem rotl_eq (x : Word) (n : Nat) (h : n < 32) : rotl x n = x.rotateLeft n := by
  rw [BitVec.rotateLeft_def, Nat.mod_eq_of_lt h]; rfl

/-- A bit of a little-endian word is a bit of one of its bytes (R10). -/
theorem getLsbD_le32 (b0 b1 b2 b3 : Byte) (i : Nat) : (le32 b0 b1 b2 b3).getLsbD i =
    if i < 8 then b0.getLsbD i else if i < 16 then b1.getLsbD (i - 8) else if i < 24 then b2.getLsbD (i - 16) else b3.getLsbD (i - 24) := by
  show (b3 ++ b2 ++ b1 ++ b0 : BitVec (8 + 8 + 8 + 8)).getLsbD i = _
  rw [BitVec.getLsbD_append, BitVec.getLsbD_append, BitVec.getLsbD_append]
  simp only [Nat.sub_sub]
  split_ifs <;> first | rfl | omega

/-- The bytes of a little-endian word (R10). -/
theorem extract_le32 (b0 b1 b2 b3 : Byte) : (le32 b0 b1 b2 b3).extractLsb' 0 8 = b0 ∧ (le32 b0 b1 b2 b3).extractLsb' 8 8 = b1 ∧ (le32 b0 b1 b2 b3).extractLsb' 16 8 = b2 ∧ (le32 b0 b1 b2 b3).extractLsb' 24 8 = b3 := by
  refine ⟨?_, ?_, ?_, ?_⟩ <;> refine BitVec.eq_of_getLsbD_eq fun i hi => ?_ <;> rw [BitVec.getLsbD_extractLsb', getLsbD_le32] <;>
  simp only [hi, decide_true, Bool.true_and] <;> split_ifs <;> first | omega | (congr 1; omega)

/-- The halves of an argument register as numbers (R28). -/
theorem lohi (v : DWord) : loHalf v = BitVec.ofNat 32 (v.toNat % 2 ^ 32) ∧ hiHalf v = BitVec.ofNat 32 (v.toNat / 2 ^ 32) := by
  constructor <;> apply BitVec.eq_of_toNat_eq <;> simp [loHalf, hiHalf, BitVec.extractLsb'_toNat, Nat.shiftRight_eq_div_pow]

/-! ### The quarter-round on the State (R103) -/

/-- The other twelve words stay. -/
theorem getElem_qrAt_of_not_mem {x : StateWords} {i j k l n : Fin 16} (hn : n ∉ [i, j, k, l]) :
    (qrAt x i j k l)[n] = x[n] := by
  simp only [List.mem_cons, List.not_mem_nil, or_false, not_or] at hn
  obtain ⟨h1, h2, h3, h4⟩ := hn
  simp [qrAt, Fin.val_inj, Ne.symm h1, Ne.symm h2, Ne.symm h3, Ne.symm h4]

/-- The four words become the results. -/
theorem getElem_qrAt {x : StateWords} {i j k l : Fin 16} (h : [i, j, k, l].Nodup) :
    (qrAt x i j k l)[i] = (qr x[i] x[j] x[k] x[l]).1 ∧ (qrAt x i j k l)[j] = (qr x[i] x[j] x[k] x[l]).2.1 ∧
    (qrAt x i j k l)[k] = (qr x[i] x[j] x[k] x[l]).2.2.1 ∧ (qrAt x i j k l)[l] = (qr x[i] x[j] x[k] x[l]).2.2.2 := by
  simp only [List.nodup_cons, List.mem_cons, List.not_mem_nil, or_false, not_or] at h
  obtain ⟨⟨hij, hik, hil⟩, ⟨hjk, hjl⟩, hkl, -⟩ := h
  simp [qrAt, Fin.val_inj, Ne.symm hij, Ne.symm hik, Ne.symm hil, Ne.symm hjk, Ne.symm hjl, Ne.symm hkl]

/-- The results depend on the four words only. -/
theorem getElem_qrAt_congr {x y : StateWords} {i j k l : Fin 16} (h : ∀ n ∈ [i, j, k, l], x[n] = y[n])
    {n : Fin 16} (hn : n ∈ [i, j, k, l]) : (qrAt x i j k l)[n] = (qrAt y i j k l)[n] := by
  have hxy := h n hn
  simp only [List.mem_cons, List.not_mem_nil, or_false, forall_eq_or_imp, forall_eq] at h
  obtain ⟨h1, h2, h3, h4⟩ := h
  simp only [Fin.getElem_fin] at hxy
  simp only [qrAt, h1, h2, h3, h4, Fin.getElem_fin, Vector.getElem_set, hxy]

/-- Quarter-rounds on disjoint groupings commute (R104, R105). -/
theorem qrAt_comm (x : StateWords) {i j k l i' j' k' l' : Fin 16} (h : ∀ n ∈ [i, j, k, l], n ∉ [i', j', k', l']) :
    qrAt (qrAt x i j k l) i' j' k' l' = qrAt (qrAt x i' j' k' l') i j k l := by
  refine Vector.ext fun n hn => ?_
  obtain ⟨n, rfl⟩ : ∃ m : Fin 16, n = m.val := ⟨⟨n, hn⟩, rfl⟩
  show (qrAt (qrAt x i j k l) i' j' k' l')[n] = (qrAt (qrAt x i' j' k' l') i j k l)[n]
  by_cases h1 : n ∈ [i', j', k', l']
  · rw [getElem_qrAt_of_not_mem fun h2 => h n h2 h1]
    exact getElem_qrAt_congr (fun m hm => getElem_qrAt_of_not_mem fun h2 => h m h2 hm) h1
  · rw [getElem_qrAt_of_not_mem h1]
    by_cases h2 : n ∈ [i, j, k, l]
    · exact (getElem_qrAt_congr (fun m hm => getElem_qrAt_of_not_mem (h m hm)) h2).symm
    · rw [getElem_qrAt_of_not_mem h2, getElem_qrAt_of_not_mem h2, getElem_qrAt_of_not_mem h1]

end Sys2Proof.Machine
end

