-- ==== Sys2Proof/Laws/PerInstr.lean ====
section
/-! SUPPORT. The statement made per instruction: the family EncodingFits. -/

namespace Sys2Proof.Laws.EncodingFits

/-- The command word of a well-formed instruction has the fixed bits of its row of spec/opcode_table.json (R82 to R84). -/
def Statement (i : Instr) : Prop := i.wellFormed = true → encode i &&& i.rowMask = i.rowMatch

/-- A format R word of a well-formed round count has its row's fixed bits (R84). -/
theorem formatR (op : Byte) {r : Nat} (hr : r ≤ 255) : (encodeR op r &&& 0xFFFF00FF).toNat = op.toNat := by
  have := op.isLt
  rw [and_mask_roundsRow, encodeR_toNat op hr]
  omega

theorem setupRfc : Statement .setupRfc := fun _ => by decide

theorem setupExt (k : Bool) : Statement (.setupExt k) := fun _ => by cases k <;> decide

theorem blockS (r : Nat) : Statement (.blockS r) := fun h =>
  BitVec.eq_of_toNat_eq (formatR 0x10 (of_decide_eq_true h))

theorem blockA (r : Nat) : Statement (.blockA r) := fun h =>
  BitVec.eq_of_toNat_eq (formatR 0x11 (of_decide_eq_true h))

theorem blockB (r : Nat) : Statement (.blockB r) := fun h =>
  BitVec.eq_of_toNat_eq (formatR 0x12 (of_decide_eq_true h))

theorem encrypt (r : Nat) : Statement (.encrypt r) := fun h =>
  BitVec.eq_of_toNat_eq (formatR 0x20 (of_decide_eq_true h))

end Sys2Proof.Laws.EncodingFits
end

