-- ==== Sys2Proof/Laws/Stream.lean ====
section
/-! SUPPORT. Shorter and later buffers, production cut at whole blocks, and what each effect reads. -/

namespace Sys2Proof.Machine

/-! ### Admitted buffers, shortened or cut -/

theorem NoClash.mono {i o len len' : Nat} (h : NoClash i o len) (hl : len' ≤ len) : NoClash i o len' := by
  unfold NoClash at *; omega

theorem InSpace.mono {c : Config} {b len len' : Nat} (h : InSpace c b len) (hl : len' ≤ len) : InSpace c b len' := by
  unfold InSpace at *; omega

theorem Reachable.mono {c : Config} {b len len' : Nat} (h : Reachable c b len) (hl : len' ≤ len) : Reachable c b len' :=
  ⟨InSpace.mono h.1 hl, fun a h1 h2 => h.2 a h1 (by omega)⟩

theorem BuffersOk.mono {s : State} {len len' : Nat} (h : BuffersOk s len) (hl : len' ≤ len) : BuffersOk s len' :=
  ⟨Reachable.mono h.1 hl, Reachable.mono h.2.1 hl, NoClash.mono h.2.2 hl⟩

theorem Reachable.suffix {c : Config} {b len k : Nat} (h : Reachable c b (k + len)) (hl : 0 < len) : Reachable c (b + k) len := by
  obtain ⟨⟨h1, h2⟩, h3⟩ := h
  exact ⟨⟨by omega, by omega⟩, fun a h1 h2 => h3 a (by omega) (by omega)⟩

/-! ### Production -/

/-- Producing nothing changes nothing (R165). -/
theorem produce_zero (r : Nat) (s : State) : produce r 0 0 s = s := by
  simp [produce, advance_zero, Memory.readBytes, xorBytes, Memory.writeBytes]

/-- k whole blocks, then `len` bytes at the position reached, are one production of `64 * k + len` bytes (R142, R162). -/
theorem produce_append (r k len n : Nat) (s : State) (hc : NoClash s.a0.toNat s.a1.toNat (64 * k + len)) : 
  ({ produce r (64 * k) k s with 
      mem := (produce r (64 * k) k s).mem.writeBytes (outAddr s + 64 * k)
          (xorBytes ((produce r (64 * k) k s).mem.readBytes (inAddr s + 64 * k) len) (keystream s.layout (produce r (64 * k) k s).S r len))
      S := advance s.layout (produce r (64 * k) k s).S n } : State)
    = produce r (64 * k + len) (k + n) s := by
  have hb : (produce r (64 * k) k s).mem.readBytes (inAddr s + 64 * k) len = s.mem.readBytes (inAddr s + 64 * k) len := by
    refine Memory.readBytes_congr fun j hj => produce_mem_outside _ _ _ _ ?_
    simp only [inAddr, outAddr]
    unfold NoClash at hc; omega
  rw [hb]
  have e : (produce r (64 * k + len) (k + n) s) = { s with 
     mem := (s.mem.writeBytes (outAddr s) (xorBytes (s.mem.readBytes (inAddr s) (64 * k)) (keystream s.layout s.S r (64 * k)))).writeBytes (outAddr s + 64 * k) (xorBytes (s.mem.readBytes (inAddr s + 64 * k) len) (keystream s.layout (advance s.layout s.S k) r len))
     S := advance s.layout (advance s.layout s.S k) n } := by
    rw [produce, keystream_add, Memory.readBytes_add, xorBytes_append (by simp [length_keystream]), Memory.writeBytes_append, advance_advance, length_produced]
  rw [e]; rfl

/-- Two canonical memories with the same bytes replaced in the same way are equal. -/
theorem eq_of_xorInto {m0 m m' : Memory} {i o len : Nat} {ks : Nat → Byte} (hm : m.wf) (hm' : m'.wf)
    (h : XorInto m0 m i o len ks) (h' : XorInto m0 m' i o len ks) : m = m' := by
  refine Memory.ext_of_read hm hm' fun a => ?_
  by_cases ha : a < o ∨ o + len ≤ a
  · rw [h.2 a ha, h'.2 a ha]
  · obtain ⟨j, rfl⟩ : ∃ j, a = o + j := ⟨a - o, by omega⟩
    rw [h.1 j (by omega), h'.1 j (by omega)]

/-- Everything an ENCRYPT that completes has required and done (R161). -/
theorem encrypt_completed {r : Nat} {s t : State} (hm : s.mem.wf) (h : exec (.encrypt r) s = .next t) (ht : t.err = .ok) :
   r % 2 = 0 ∧ s.valid = true ∧ BuffersOk s s.a2.toNat ∧ t.mem.wf ∧
   t = { s with S := advance s.layout s.S (blocksFor s.a2.toNat), err := .ok, mem := t.mem } ∧
   XorInto s.mem t.mem s.a0.toNat s.a1.toNat s.a2.toNat (keyByte s.layout s.S r) := by
  obtain ⟨h1, rfl⟩ := completed_of_ok h ht
  obtain ⟨h3, h4, h5⟩ := (checks_encrypt r s).1 h1
  exact ⟨h3, h4, h5, produce_wf r _ (blocksFor s.a2.toNat) hm, rfl, produce_xorInto r _ (blocksFor s.a2.toNat) hm⟩

/-! ### What an effect reads (R66) -/

theorem Memory.readWord_congr {m m' : Memory} {a : Nat} (h : ∀ j < 4, m'.read (a + j) = m.read (a + j)) :
    m'.readWord a = m.readWord a := by
  simp only [Memory.readWord, h 1 (by omega), h 2 (by omega), h 3 (by omega), show m'.read a = m.read a from h 0 (by omega)]

theorem Memory.readRow_congr {m m' : Memory} {a : Nat} (h : ∀ j < 16, m'.read (a + j) = m.read (a + j)) :
    m'.readRow a = m.readRow a := by
  have hw : ∀ k ≤ 12, m'.readWord (a + k) = m.readWord (a + k) := fun k hk =>
    Memory.readWord_congr fun j hj => by rw [Nat.add_assoc]; exact h (k + j) (by omega)
  simp only [Memory.readRow, hw 4 (by omega), hw 8 (by omega), hw 12 (by omega), show m'.readWord a = m.readWord a from hw 0 (by omega)]

theorem rfcWords_congr {s : State} {m' : Memory} (hk : ∀ j < 32, m'.read (keyAddr s + j) = s.mem.read (keyAddr s + j))
    (hn : ∀ j < 12, m'.read (nonceAddr s + j) = s.mem.read (nonceAddr s + j)) : rfcWords { s with mem := m' } = rfcWords s := by
  have hw : ∀ k ≤ 8, m'.readWord (nonceAddr s + k) = s.mem.readWord (nonceAddr s + k) := fun k hk =>
    Memory.readWord_congr fun j hj => by rw [Nat.add_assoc]; exact hn (k + j) (by omega)
  have h3 : rfcRow3 { s with mem := m' } = rfcRow3 s := by
    show #v[_, m'.readWord (nonceAddr s), m'.readWord (nonceAddr s + 4), m'.readWord (nonceAddr s + 8)] = _
    rw [hw 4 (by omega), hw 8 (by omega), show m'.readWord (nonceAddr s) = s.mem.readWord (nonceAddr s) from hw 0 (by omega)]
    rfl
  rw [rfcWords, rfcWords, h3]
  show ofRows sigma (m'.readRow (keyAddr s)) (m'.readRow (keyAddr s + 16)) _ = _
  rw [Memory.readRow_congr (m := s.mem) (a := keyAddr s) fun j hj => hk j (by omega),
    Memory.readRow_congr (m := s.mem) (a := keyAddr s + 16) fun j hj => by rw [Nat.add_assoc]; exact hk (16 + j) (by omega)]

theorem extWords_congr {k : Bool} {s : State} {m' : Memory} (hk : ∀ j < keyLen k, m'.read (keyAddr s + j) = s.mem.read (keyAddr s + j)) :
    extWords k { s with mem := m' } = extWords k s := by
  have h0 : m'.readRow (keyAddr s) = s.mem.readRow (keyAddr s) :=
    Memory.readRow_congr fun j hj => hk j (by cases k <;> simp [keyLen] <;> omega)
  cases k with
  | true =>
    show ofRows (s.cfg.key128.getD sigma) (m'.readRow (keyAddr s)) (m'.readRow (keyAddr s)) (extRow3 s) = _
    rw [h0]; rfl
  | false =>
    show ofRows sigma (m'.readRow (keyAddr s)) (m'.readRow (keyAddr s + 16)) (extRow3 s) = _
    rw [h0, Memory.readRow_congr (m := s.mem) (a := keyAddr s + 16) fun j hj => by rw [Nat.add_assoc]; exact hk (16 + j) (by simp [keyLen]; omega)]
    rfl

theorem produce_congr (r len n : Nat) {s : State} {m' : Memory} (hm : s.mem.wf) (hm' : m'.wf)
    (h : ∀ j < len, m'.read (inAddr s + j) = s.mem.read (inAddr s + j)) :
    ∀ j < len, (produce r len n { s with mem := m' }).mem.read (outAddr s + j) = (produce r len n s).mem.read (outAddr s + j) := by
  intro j hj
  rw [produce_mem_inside r len n hm hj]
  refine (produce_mem_inside r len n (s := { s with mem := m' }) hm' hj).trans ?_
  show m'.read (inAddr s + j) ^^^ _ = _
  rw [h j hj]

/-! ### The kinds of command -/

/-- A command is SETUP.RFC, SETUP.EXT or a block producer. -/
theorem instr_kind (i : Instr) : i = .setupRfc ∨ (∃ k, i = .setupExt k) ∨ ∃ r, i ∈ [Instr.blockS r, .blockA r, .blockB r, .encrypt r] := by
  cases i <;> simp

/-- A block producer's effect is production of its stream. -/
theorem effectOf_stream {i : Instr} {r : Nat} (s : State) (hi : i ∈ [Instr.blockS r, .blockA r, .blockB r, .encrypt r]) :
    ∃ n, effectOf i s = produce r (streamLen i s) n s := by
  simp only [List.mem_cons, List.not_mem_nil, or_false] at hi
  rcases hi with rfl | rfl | rfl | rfl <;> exact ⟨_, rfl⟩

/-- A block producer's footprint (R66). -/
theorem reads_stream {i : Instr} {r : Nat} (s : State) (hi : i ∈ [Instr.blockS r, .blockA r, .blockB r, .encrypt r]) :
    reads i s = [⟨inAddr s, streamLen i s⟩] ∧ writes i s = [⟨outAddr s, streamLen i s⟩] := by
  simp only [List.mem_cons, List.not_mem_nil, or_false] at hi
  rcases hi with rfl | rfl | rfl | rfl <;> exact ⟨rfl, rfl⟩

theorem inFootprint_single (b len a : Nat) : InFootprint [⟨b, len⟩] a ↔ ∃ j < len, a = b + j := by
  simp only [InFootprint, List.mem_singleton, exists_eq_left]
  exact ⟨fun h => ⟨a - b, by omega, by omega⟩, fun ⟨j, h, e⟩ => by omega⟩

end Sys2Proof.Machine
end

