-- ==== Sys2Proof/Tests/Slice0.lean ====
section
/-! SUPPORT. The model's own tests: the WellFormed smoke test, words written out bit by bit from 30_encoding.md, vectors of
spec/95_test_vectors.md (each test names its vector), and a witness for the hypotheses of every obligation that has some. -/

namespace Sys2Proof.Tests

open Sys2Proof.Machine

-- One proof at a time: the proofs below evaluate whole blocks, and running them side by side takes much memory.
set_option Elab.async false

/-! ### States the tests start from -/

/-- The state an outcome goes on with. -/
def nextOf : Host.Outcome State Fault Refusal → Option State
  | .next t => some t
  | .fault _ => none
  | .refused _ => none

/-- Key K of spec/95_test_vectors.md. -/
def keyK : List Byte := (List.range 32).map (BitVec.ofNat 8)

/-- K at 0x1000 and N232 at 0x1020. -/
def keyMem : Memory :=
  (Memory.writeBytes [] 0x1000 keyK).writeBytes 0x1020 [0, 0, 0, 9, 0, 0, 0, 0x4a, 0, 0, 0, 0]

/-- The reset state with keys in memory, before a SETUP. -/
def fresh (a0 a1 a2 : DWord) : State := { State.reset with mem := keyMem, a0 := a0, a1 := a1, a2 := a2 }

/-- The State words of vector U1 with the counter `c`. -/
def wordsU1 (c : Word) : StateWords :=
  #v[0x61707865, 0x3320646e, 0x79622d32, 0x6b206574, 0x03020100, 0x07060504, 0x0b0a0908, 0x0f0e0d0c,
     0x13121110, 0x17161514, 0x1b1a1918, 0x1f1e1d1c, c, 0x09000000, 0x4a000000, 0x00000000]

/-- The State words of vector U4. -/
def wordsU4 : StateWords :=
  #v[0x61707865, 0x3320646e, 0x79622d32, 0x6b206574, 0x03020100, 0x07060504, 0x0b0a0908, 0x0f0e0d0c,
     0x13121110, 0x17161514, 0x1b1a1918, 0x1f1e1d1c, 0, 0, 0x03020100, 0x07060504]

/-- A State set up as in vector U1, with zero bytes in memory. -/
def live (a0 a1 a2 : DWord) : State :=
  { State.reset with S := wordsU1 1, valid := true, a0 := a0, a1 := a1, a2 := a2 }

/-- A State set up as in vector U4. -/
def liveExt (a0 a1 a2 : DWord) : State :=
  { State.reset with S := wordsU4, valid := true, layout := .ext, a0 := a0, a1 := a1, a2 := a2 }

/-- The configuration with 128-bit keys and the constants "expand 16-byte k" (vector U6). -/
def cfg128 : Config := { Config.reference with key128 := some #v[0x61707865, 0x3120646e, 0x79622d36, 0x6b206574] }

/-- A configuration with no SIMD backend. -/
def cfgScalar : Config := { Config.reference with strideA := 0, strideB := 0 }

/-- A configuration with a 16-bit address space. -/
def cfgNarrow : Config := { Config.reference with addrW := 16 }

/-- Bytes below 0x10000 are reachable in the reference configuration. -/
theorem reachable_low {b len : Nat} (hb : b < 0x10000) (h : b + len ≤ 0x10000) : Reachable Config.reference b len := by
  refine ⟨⟨?_, ?_⟩, fun a _ ha => ?_⟩
  · show b < 2 ^ 64; omega
  · show b + len ≤ 2 ^ 64; omega
  · exact (memOK_iff _ _).2 fun r hr => .inl (by rw [List.mem_singleton.1 hr]; exact ha.trans_le h)

theorem buffers_low {s : State} {i o len : Nat} (hc : s.cfg = Config.reference) (hi : s.a0.toNat = i) (ho : s.a1.toNat = o)
    (h1 : i < 0x10000) (h2 : o < 0x10000) (h3 : i + len ≤ 0x10000) (h4 : o + len ≤ 0x10000) (hn : NoClash i o len) :
    BuffersOk s len := by
  subst hi ho
  rw [BuffersOk, hc]
  exact ⟨reachable_low h1 h3, reachable_low h2 h4, hn⟩

/-! ### WellFormed -/

theorem test_wellFormed_accepts_255 : ∀ i ∈ [Instr.blockS 255, .blockA 255, .blockB 255, .encrypt 255, .setupRfc,
    .setupExt true], i.wellFormed = true := by decide

theorem test_wellFormed_refuses_256 : ∀ i ∈ [Instr.blockS 256, .blockA 256, .blockB 256, .encrypt 256],
    i.wellFormed = false := by decide

theorem test_config_refuses_no_address_bits : ({ Config.reference with addrW := 0 } : Config).wellFormed = false := by decide

theorem test_config_accepts_the_reference : Config.reference.wellFormed = true := by decide

theorem test_config_refuses_65_address_bits : ({ Config.reference with addrW := 65 } : Config).wellFormed = false := by decide

/-! ### Words written out from R82 to R84 -/

theorem test_decode_setupRfc : decodeTableWord 32 0b00000000000000000000000000000001 = some .setupRfc := by decide

theorem test_decode_setupExt256 : decodeTableWord 32 0b00000000000000000000000000000010 = some (.setupExt false) := by decide

theorem test_decode_setupExt128 : decodeTableWord 32 0b00000000000000010000000000000010 = some (.setupExt true) := by decide

theorem test_decode_blockS : decodeTableWord 32 0b00000000000000001111111100010000 = some (.blockS 255) := by decide

theorem test_decode_blockA : decodeTableWord 32 0b00000000000000000000100000010001 = some (.blockA 8) := by decide

theorem test_decode_blockB : decodeTableWord 32 0b00000000000000000000110000010010 = some (.blockB 12) := by decide

theorem test_decode_encrypt : decodeTableWord 32 0b00000000000000000001001100100000 = some (.encrypt 19) := by decide

/-- Reserved bits at both ends of each reserved field, and opcodes beside the legal ones (R82 to R84, R89). -/
theorem test_decode_rejects :
    ([0x00000101, 0x80000001, 0x00000102, 0x00008002, 0x00020002, 0x80000002, 0x00010010, 0x80001411, 0x00011412,
      0x00011420] : List Word).map decode = List.replicate 10 (.error .reservedBits) ∧
    ([0x00000000, 0x00000003, 0x0000000f, 0x00000013, 0x00000021, 0x000000ff] : List Word).map decode =
      List.replicate 6 (.error .illegalOpcode) := by decide +kernel

/-- R91: `ENCRYPT 20` is 0x00001420; hexadecimal counts; a count above 255 is rejected; an odd one is not. -/
theorem test_assembler_lines :
    assembleLine "ENCRYPT 20".toList = some 0x00001420 ∧ assembleLine "BLOCK.S 0x14".toList = some 0x00001410 ∧
    assembleLine "SETUP.EXT.K128".toList = some 0x00010002 ∧ assembleLine "ENCRYPT 19".toList = some 0x00001320 ∧
    assembleLine "BLOCK.A 256".toList = none ∧ assembleLine "BLOCK.B".toList = none := by decide +kernel

/-- R93: the expansion of `block.s`. -/
theorem test_expand_blockS : (HostLine.blockS 0x2000 0x100003000).expand =
    some [.wr 0x010 0x2000, .wr 0x014 0, .wr 0x018 0x3000, .wr 0x01C 1, .wr 0x000 0x1410] := by decide +kernel

/-! ### The round core (sections 1.2 and 2.1) -/

/-- RFC 7539 2.2.1: only words 2, 7, 8 and 13 change. -/
theorem test_qrAt_rfc : qrAt #v[0x879531e0, 0xc5ecf37d, 0x516461b1, 0xc9a62f8a, 0x44c20ef3, 0x3390af7f, 0xd9fc690b, 0x2a5f714c,
      0x53372767, 0xb00a5631, 0x974c541a, 0x359e9963, 0x5c971061, 0x3d631689, 0x2098d9d6, 0x91dbd320] 2 7 8 13 =
    #v[0x879531e0, 0xc5ecf37d, 0xbdb886dc, 0xc9a62f8a, 0x44c20ef3, 0x3390af7f, 0xd9fc690b, 0xcfacafd2,
      0xe46bea80, 0xb00a5631, 0x974c541a, 0x359e9963, 0x5c971061, 0xccc07c79, 0x2098d9d6, 0x91dbd320] := by decide +kernel

/-- Section 2.1: the column round of the RFC 2.3.2 State. -/
theorem test_columnRound : columnRound (wordsU1 1) =
    #v[0xabbaa25c, 0x1efa51ea, 0x7354fbdf, 0x83d2dc69, 0x3a465196, 0x1c7e64f6, 0xb12fb628, 0xf05b6976,
      0x6b3ca454, 0x08eb14b1, 0xbf8a9ac9, 0xe444df3b, 0xdec62ed2, 0x8862cc77, 0x6e35b345, 0x52a647f1] := by decide +kernel

/-- Section 2.1: one double-round of it. -/
theorem test_doubleRound : doubleRound (wordsU1 1) =
    #v[0xcd52e917, 0x85ab03b4, 0xb3457395, 0xf96de7dd, 0xc4b7cd22, 0x5c2e187a, 0xc95eb461, 0x316c801a,
      0x7bf7d740, 0x7eddd644, 0xf1a1bdf5, 0x761246ca, 0x6b0d58a3, 0x6798471a, 0xd737f167, 0xf173888d] := by decide +kernel

/-- Section 2.1: the block at r = 8, its first and last four bytes. -/
theorem test_block_8 : (block (wordsU1 1) 8).take 4 = [0xee, 0xad, 0x9d, 0xfb] ∧
    (block (wordsU1 1) 8).drop 60 = [0xca, 0xb2, 0x3b, 0x2b] := by decide +kernel

/-! ### SETUP (section 2.2) -/

/-- U2: A2[63:32] is ignored; the step runs the table's word as its first instruction. -/
theorem test_setupRfc_U2 : (nextOf (step ((fresh 0x1000 0x1020 0xdeadbeef00000001).withFetchWord 32 0x00000001))).map
    (fun t => (t.S, statusWord t)) = some (wordsU1 1, 0x00000100) := by decide +kernel

/-- U4. -/
theorem test_setupExt_U4 : (nextOf (step ((fresh 0x1000 0x0706050403020100 0).withFetchWord 32 0x00000002))).map
    (fun t => (t.S, statusWord t)) = some (wordsU4, 0x00000300) := by decide +kernel

/-- U6: a 128-bit key is doubled under `K128_CONST`. -/
theorem test_setupExt_U6 : (nextOf (exec (.setupExt true)
      { fresh 0x1000 0x0706050403020100 0 with cfg := cfg128 })).map (fun t => (t.S, statusWord t)) =
    some (#v[0x61707865, 0x3120646e, 0x79622d36, 0x6b206574, 0x03020100, 0x07060504, 0x0b0a0908, 0x0f0e0d0c,
      0x03020100, 0x07060504, 0x0b0a0908, 0x0f0e0d0c, 0, 0, 0x03020100, 0x07060504], 0x00000300) := by decide +kernel

/-! ### Block producers and ENCRYPT (sections 1.2 and 2.3 to 2.5) -/

/-- B1: the block's first row and last byte, the counter, STATUS, and the input left zero. -/
theorem test_blockS_B1 : (nextOf (exec (.blockS 20) (live 0x2000 0x3000 0))).map
    (fun t => (t.mem.readBytes 0x3000 16, t.mem.read 0x303f, t.S, statusWord t, t.mem.read 0x2000)) =
    some ([0x10, 0xf1, 0xe7, 0xe4, 0xd1, 0x3b, 0x59, 0x15, 0x50, 0x0f, 0xdd, 0x1f, 0xa3, 0x20, 0x71, 0xc4], 0x4e,
      wordsU1 2, 0x00000100, 0) := by decide +kernel

/-- W1: the counter wraps to 0 with no carry into word 13 and no fault. -/
theorem test_blockS_W1 : (nextOf (exec (.blockS 20) { live 0x2000 0x3000 0 with S := wordsU1 0xffffffff })).map
    (fun t => (t.mem.readBytes 0x3000 4, t.S, statusWord t)) =
    some ([0xff, 0x29, 0x41, 0xb8], wordsU1 0, 0x00000100) := by decide +kernel

/-- B7 with `STRIDE_A` = 4 from counter 0: the counter word of block 3 at r = 0 is `2 * 3` (R108), the counter ends at 4. -/
theorem test_blockA_stride4 : (nextOf (exec (.blockA 0)
      { live 0x2000 0x3000 0 with S := wordsU1 0, cfg := { Config.reference with strideA := 4 } })).map
    (fun t => (t.mem.readBytes 0x30f0 4, t.S)) = some ([6, 0, 0, 0], wordsU1 4) := by decide +kernel

/-- B9: the EXT layout, two blocks in place. -/
theorem test_blockB_B9 : (nextOf (exec (.blockB 20) (liveExt 0x2000 0x2000 0))).map
    (fun t => (t.mem.readBytes 0x2000 4, t.mem.readBytes 0x2040 4, t.S[12], t.S[13], statusWord t)) =
    some ([0xf7, 0x98, 0xa1, 0x89], [0x38, 0x00, 0x8b, 0x9a], 2, 0, 0x00000300) := by decide +kernel

/-- T11: input bytes 0x40, 0x41, ... (70 bytes); the first and last output bytes, the byte after them, the counter. -/
theorem test_encrypt_T11 : (nextOf (exec (.encrypt 20)
      { live 0x2000 0x3000 70 with mem := Memory.writeBytes [] 0x2000 ((List.range 70).map fun j => BitVec.ofNat 8 (0x40 + j)) })).map
    (fun t => (t.mem.readBytes 0x3000 4, t.mem.readBytes 0x3040 7, t.S[12])) =
    some ([0x50, 0xb0, 0xa5, 0xa7], [0x8a, 0x09, 0x01, 0xf4, 0xbd, 0x52, 0], 3) := by decide +kernel

/-- W6: the EXT counter wraps at 2^64. -/
theorem test_advance_W6 : advance .ext ((wordsU4.set 12 0xffffffff).set 13 0xffffffff) 1 = wordsU4 := by decide +kernel

/-! ### Faults (section 2.6) -/

/-- F1, F4, F7, F11, F17 from reset: STATUS and FAULT after. -/
theorem test_faults_from_reset :
    ([(0, 0, 0, 0x00000000), (0, 0, 0, 0x00000101), (0x1000, 0, 0, 0x00010002), (0x2000, 0x3000, 64, 0x00001420),
      (0xfff0, 0x1020, 0, 0x00000001)] : List (DWord × DWord × DWord × Word)).map
      (fun x => (nextOf (issue x.2.2.2 (fresh x.1 x.2.1 x.2.2.1))).map fun t => (statusWord t, faultWord t)) =
    [some (1, 1), some (2, 2), some (3, 3), some (6, 6), some (9, 9)] := by decide +kernel

/-- F3, F6, F8, F12, F13, F16, F18, F19 after SETUP: STATUS and FAULT after. -/
theorem test_faults_after_setup :
    ([(0, 0, 0, 0x000000ff), (0x2000, 0x3000, 64, 0x00011420), (0x2000, 0x3000, 0, 0x00001310),
      (0xfffffffffffffff0, 0x3000, 32, 0x00001420), (0x2000, 0x2010, 64, 0x00001420), (0xfff0, 0x3000, 32, 0x00001420),
      (0xfff0, 0xfff0, 0xfffffffffffffff0, 0x00001520), (0x2000, 0x2010, 0, 0x00001420)] :
      List (DWord × DWord × DWord × Word)).map
      (fun x => (nextOf (issue x.2.2.2 (live x.1 x.2.1 x.2.2.1))).map fun t => (statusWord t, faultWord t)) =
    [some (0x101, 1), some (0x102, 2), some (0x104, 4), some (0x107, 7), some (0x108, 8), some (0x109, 9), some (0x104, 4),
      some (0x100, 0)] := by decide +kernel

/-- F9, F10: an unavailable backend, and an odd count before it. -/
theorem test_faults_unavailable :
    ((nextOf (issue 0x00001411 { live 0x2000 0x3000 0 with cfg := cfgScalar })).map statusWord,
      (nextOf (issue 0x00001311 { fresh 0x2000 0x3000 0 with cfg := cfgScalar })).map statusWord) =
    (some 0x00000105, some 0x00000004) := by decide +kernel

/-! ### Registers and reset (section 2.7) -/

/-- G2, G3. -/
theorem test_cap : capWord Config.reference = 0x00020101 ∧
    capWord { cfg128 with strideA := 0, strideB := 4 } = 0x01040001 := by decide +kernel

/-- G4, G5: CMD reads 0; writes to read-only registers and reserved offsets change nothing. -/
theorem test_read_only : ∀ off ∈ [0x004, 0x008, 0x00C, 0x028, 0x03C, 0x040, 0x07C],
    (nextOf (hostWrite off 0xffffffff (live 0 0 0)) = some (live 0 0 0)) := by decide +kernel

/-- G6: the two halves of A0. -/
theorem test_argument_halves : (nextOf (hostWrite 0x010 0x89abcdef (live 0xffffffffffffffff 0 0))).bind
    (fun t => (nextOf (hostWrite 0x014 0x01234567 t)).map (·.a0)) = some 0x0123456789abcdef := by decide +kernel

/-- G7: `RD S12` after U1. -/
theorem test_read_S12 : (nextOf (hostRead 0x070 (live 0 0 0))).map (·.answers) = some [.reg 0x070 1] := by decide +kernel

/-- G9: reset after U1, memory kept. -/
theorem test_reset : nextOf (hostAction .reset { live 1 2 3 with mem := keyMem, first := .fault .bus }) =
    some (fresh 0 0 0) := by decide +kernel

/-- R60, R71: a host access to a byte that is not backed, or does not exist, stops (log 9). -/
theorem test_host_memory_stops :
    hostMemFault Config.reference 0xfffe 3 = some (.unbackedByte 0x10000) ∧
    hostMemFault cfgNarrow 0x10000 1 = some (.outsideBuffer 0x10000) ∧
    hostMemFault Config.reference 0xfffe 2 = none ∧ hostMemFault Config.reference 0x10000 0 = none := by decide +kernel

/-- The word of every row runs as the first instruction after reset: SETUP.RFC and SETUP.EXT complete on zeroed arguments,
the 128-bit form and the block producers fault (R90, R26). -/
theorem test_first_instruction_after_reset :
    ([0x00000001, 0x00000002, 0x00010002, 0x00000010, 0x00000011, 0x00000012, 0x00000020].map fun w =>
      (nextOf (step (State.reset.withFetchWord 32 w))).map fun t => (t.err, t.valid)) =
    [some (.ok, true), some (.ok, true), some (.fault .badKeybits, false), some (.fault .notInit, false),
      some (.fault .notInit, false), some (.fault .notInit, false), some (.fault .notInit, false)] := by decide +kernel

/-! ### Witnesses: each obligation's hypotheses, met together -/

theorem encrypt_runs {r : Nat} {s : State} (hr : r % 2 = 0) (hv : s.valid = true) (hb : BuffersOk s s.a2.toNat) :
    ∃ t, exec (.encrypt r) s = .next t ∧ t.err = .ok :=
  ⟨_, exec_of_pass ((checks_encrypt r s).2 ⟨hr, hv, hb⟩), rfl⟩

theorem buffers_live {n : DWord} (h : n.toNat ≤ 0x1000) : BuffersOk (live 0x2000 0x3000 n) n.toNat :=
  buffers_low (i := 0x2000) (o := 0x3000) rfl rfl rfl (by decide) (by decide) (by omega) (by omega)
    (.inr (.inr (.inl (by omega))))

theorem buffers_liveExt {n : DWord} (h : n.toNat ≤ 0x1000) : BuffersOk (liveExt 0x2000 0x3000 n) n.toNat :=
  buffers_low (i := 0x2000) (o := 0x3000) rfl rfl rfl (by decide) (by decide) (by omega) (by omega)
    (.inr (.inr (.inl (by omega))))

theorem test_witness_DecodeOfEncodeIsTheCommand : (Instr.encrypt 0).wellFormed = true ∧ (Instr.encrypt 255).wellFormed = true := by
  decide +kernel

theorem test_witness_EncodeOfDecodeIsTheWord : decode 0xff12 = .ok (.blockB 255) := by decide +kernel

/-- An operation code of each clause, the first with its neighbours. -/
theorem test_witness_DecodeIsTotalOnCommandWords :
    (0x00000100 : Word).toNat % 256 ∉ [0x01, 0x02, 0x10, 0x11, 0x12, 0x20] ∧
    (0x00000003 : Word).toNat % 256 ∉ [0x01, 0x02, 0x10, 0x11, 0x12, 0x20] ∧
    (0xffffff01 : Word).toNat % 256 = 0x01 ∧ (0x00010002 : Word).toNat % 256 = 0x02 ∧ (0x0000ff10 : Word).toNat % 256 = 0x10 ∧
    (0x00010011 : Word).toNat % 256 = 0x11 ∧ (0x00000012 : Word).toNat % 256 = 0x12 ∧ (0x80000020 : Word).toNat % 256 = 0x20 ∧
    decode 0x21 = .error .illegalOpcode ∧ decode 0x00020002 = .error .reservedBits := by decide +kernel

theorem test_witness_DecodeAgreesWithTheOpcodeTable : decode 0x1420 = .ok (.encrypt 20) ∧
    (0x00010002 : Word) &&& (Instr.setupExt false).rowMask = (Instr.setupExt false).rowMatch := by decide +kernel

/-- Both spellings of the greatest count and of the first rejected one, and lines that assemble. -/
theorem test_witness_AssemblerFollowsTheSyntaxTable : 255 ≤ 255 ∧ 255 < 256 ∧
    Nat.toDigits 10 255 = "255".toList ∧ '0' :: 'x' :: Nat.toDigits 16 256 = "0x100".toList ∧
    assembleLine "ENCRYPT 0xFF".toList = some 0x0000ff20 ∧ assembleLine "SETUP.RFC".toList = some 0x00000001 := by decide +kernel

theorem test_witness_StepRunsTheDecodedCommand : ({ live 0 0 0 with host := [.wr 0x000 0x1420, .reset] } : State).host =
    .wr 0x000 0x1420 :: [.reset] ∧ decode 0x1420 = .ok (.encrypt 20) := by decide +kernel

theorem test_witness_StepWithNoHostActionWaits : (live 0 0 0).host = [] := rfl

theorem test_witness_QuarterRoundFollowsItsFourLines : ∃ a1 d1 c1 b1 a2 d2 c2 b2 : Word,
    a1 = 0x11111111 + 0x01020304 ∧ d1 = (0x01234567 ^^^ a1).rotateLeft 16 ∧ c1 = 0x9b8d6f43 + d1 ∧
    b1 = (0x01020304 ^^^ c1).rotateLeft 12 ∧ a2 = a1 + b1 ∧ d2 = (d1 ^^^ a2).rotateLeft 8 ∧ c2 = c1 + d2 ∧
    b2 = (b1 ^^^ c2).rotateLeft 7 := ⟨_, _, _, _, _, _, _, _, rfl, rfl, rfl, rfl, rfl, rfl, rfl, rfl⟩

theorem test_witness_QuarterRoundOnTheStateChangesFourWords : ([3, 4, 9, 15] : List (Fin 16)).Nodup ∧
    (0 : Fin 16) ∉ ([3, 4, 9, 15] : List (Fin 16)) ∧ (14 : Fin 16) ∉ ([3, 4, 9, 15] : List (Fin 16)) := by decide +kernel

theorem test_witness_RoundsDoNotDependOnTheGroupingOrder : columnGroups.reverse.Perm columnGroups ∧
    diagonalGroups.reverse.Perm diagonalGroups := ⟨List.reverse_perm _, List.reverse_perm _⟩

theorem test_witness_CounterPlacementTouchesOnlyTheCounterWords : 2 ^ 32 - 1 < 2 ^ 32 ∧ 2 ^ 64 - 1 < 2 ^ 64 ∧
    (13 : Fin 16) ≠ 12 ∧ (14 : Fin 16) ≠ 12 ∧ (14 : Fin 16) ≠ 13 := by decide +kernel

theorem test_witness_CounterAdvanceWrapsPerLayout :
    (wordsU4.set 12 0xffffffff)[12] = 0xffffffff ∧ (wordsU4.set 12 0xffffffff)[13] = 0 := by decide +kernel

theorem test_witness_KeystreamIsTheCounterBlocksInOrder : 69 < 70 ∧ 70 ≤ 70 ∧ 0 ≤ 70 := by decide +kernel

theorem test_witness_ByteRotationsAreShuffles : (0x12345678 : Word) = le32 0x78 0x56 0x34 0x12 := by decide +kernel

/-- The last 32 and the last 12 backed bytes. -/
theorem test_witness_SetupRfcLoadsKeyCounterAndNonce :
    Reachable (fresh 0xffe0 0xfff4 1).cfg (fresh 0xffe0 0xfff4 1).a0.toNat 32 ∧
    Reachable (fresh 0xffe0 0xfff4 1).cfg (fresh 0xffe0 0xfff4 1).a1.toNat 12 :=
  ⟨reachable_low (by decide +kernel) (by decide +kernel), reachable_low (by decide +kernel) (by decide +kernel)⟩

theorem test_witness_SetupExtLoadsA256BitKey : Reachable (fresh 0x1000 0 0).cfg (fresh 0x1000 0 0).a0.toNat 32 :=
  reachable_low (by decide +kernel) (by decide +kernel)

theorem test_witness_SetupExtDoublesA128BitKey : ∃ (s : State) (k : Row), s.cfg.key128 = some k ∧ Reachable s.cfg s.a0.toNat 16 :=
  ⟨{ fresh 0xfff0 0 0 with cfg := cfg128 }, _, rfl, reachable_low (b := 0xfff0) (by decide +kernel) (by decide +kernel)⟩

/-- A SETUP that completes and one that faults, over a State set up before. -/
theorem test_witness_SetupDoesNotReadTheOldState :
    (∃ t t', exec .setupRfc (fresh 0x1000 0x1020 1) = .next t ∧
      exec .setupRfc { fresh 0x1000 0x1020 1 with S := wordsU4, valid := true, layout := .ext } = .next t' ∧ t.err = .ok) ∧
    (∃ t t', exec (.setupExt true) (live 0x1000 0 0) = .next t ∧
      exec (.setupExt true) { live 0x1000 0 0 with S := wordsU4, valid := false, layout := .ext } = .next t' ∧ t.err ≠ .ok) := by
  have h : ∀ s : State, s.cfg = Config.reference → s.a0 = 0x1000 → s.a1 = 0x1020 →
      exec .setupRfc s = .next (complete (effectOf .setupRfc s)) := fun s hc h0 h1 =>
    exec_of_pass ((checks_setupRfc s).2 (by
      rw [hc, h0, h1]
      exact ⟨reachable_low (by decide +kernel) (by decide +kernel), reachable_low (by decide +kernel) (by decide +kernel)⟩))
  have hf : ∀ s : State, s.cfg = Config.reference → exec (.setupExt true) s = .next (raise .badKeybits s) := fun s hc =>
    exec_of_fault (by simp [checksOf, hc, Config.reference])
  exact ⟨⟨_, _, h _ rfl rfl rfl, h _ rfl rfl rfl, rfl⟩, ⟨_, _, hf _ rfl, hf _ rfl, by simp⟩⟩

/-- Each of the three commands, in place, up to the last backed byte, and on adjacent buffers. -/
theorem test_witness_BlockCommandsXorTheKeystream :
    (live 0xffc0 0xffc0 0).mem.wf ∧ 20 % 2 = 0 ∧ (1 : Nat) ≠ 0 ∧ (2 : Nat) = (live 0 0 0).cfg.strideB ∧
    (1 : Nat) = (live 0 0 0).cfg.strideA ∧ (live 0xffc0 0xffc0 0).valid = true ∧ BuffersOk (live 0xffc0 0xffc0 0) (64 * 1) ∧
    BuffersOk (live 0x2000 0x2080 0) (64 * 2) :=
  ⟨Memory.wf_nil, by decide +kernel, by decide +kernel, rfl, rfl, rfl,
    buffers_low (i := 0xffc0) (o := 0xffc0) rfl rfl rfl (by decide +kernel) (by decide +kernel) (by decide +kernel) (by decide +kernel) (by unfold NoClash; decide),
    buffers_low (i := 0x2000) (o := 0x2080) rfl rfl rfl (by decide +kernel) (by decide +kernel) (by decide +kernel) (by decide +kernel) (by unfold NoClash; decide)⟩

theorem test_witness_EncryptXorsTheKeystream : (live 0x2000 0x3000 70).mem.wf ∧ 0 % 2 = 0 ∧ (live 0x2000 0x3000 70).valid = true ∧
    BuffersOk (live 0x2000 0x3000 70) (live 0x2000 0x3000 70).a2.toNat :=
  ⟨Memory.wf_nil, rfl, rfl, buffers_live (by decide +kernel)⟩

theorem test_witness_EncryptAdvancesTheCounterByItsBlocks :
    (∃ t, exec (.encrypt 20) (live 0x2000 0x3000 70) = .next t ∧ t.err = .ok) ∧ (live 0x2000 0x3000 70).layout = .rfc ∧
    (∃ t, exec (.encrypt 20) (liveExt 0x2000 0x3000 70) = .next t ∧ t.err = .ok) ∧ (liveExt 0x2000 0x3000 70).layout = .ext :=
  ⟨encrypt_runs rfl rfl (buffers_live (n := 70) (by decide)), rfl,
    encrypt_runs rfl rfl (buffers_liveExt (n := 70) (by decide)), rfl⟩

/-- A state for each clause: odd count, no State, a base just outside a narrow space, and one that completes. -/
theorem test_witness_EncryptOfNothingChangesNothing :
    (live 0x2000 0x2010 0).a2 = 0 ∧
    ([(19, live 0x2000 0x2010 0), (20, fresh 0x2000 0x2010 0), (20, { live 0x10000 0 0 with cfg := cfgNarrow }),
      (20, { live 0xffff 0xffff 0 with cfg := cfgNarrow })].map fun x => (nextOf (exec (.encrypt x.1) x.2)).map (·.err)) =
    [some (.fault .badRounds), some (.fault .notInit), some (.fault .range), some .ok] := by decide +kernel

/-- Two blocks ending at the last backed byte. -/
theorem test_witness_BackendChoiceNeverChangesResults : (live 0xff80 0xff80 0).mem.wf ∧
    (live 0xff80 0xff80 0).cfg.wellFormed = true ∧ 20 % 2 = 0 ∧ 2 ≠ 0 ∧ (live 0xff80 0xff80 0).valid = true ∧
    BuffersOk (live 0xff80 0xff80 0) (64 * 2) :=
  ⟨Memory.wf_nil, by decide +kernel, rfl, by decide +kernel, rfl,
    buffers_low (i := 0xff80) (o := 0xff80) rfl rfl rfl (by decide +kernel) (by decide +kernel) (by decide +kernel) (by decide +kernel) (by unfold NoClash; decide)⟩

theorem test_witness_EncryptScheduleIsNotObservable : 20 % 2 = 0 ∧ (live 0x2000 0x3000 200).valid = true ∧
    BuffersOk (live 0x2000 0x3000 200) (live 0x2000 0x3000 200).a2.toNat := ⟨rfl, rfl, buffers_live (by decide +kernel)⟩

theorem keyMem_wf : keyMem.wf := Memory.writeBytes_wf (Memory.writeBytes_wf Memory.wf_nil _ _) _ _

theorem test_witness_BytePositionsMayRunInAnyOrder : (live 0x2000 0x3000 3).mem.wf ∧
    (∃ t, exec (.encrypt 20) (live 0x2000 0x3000 3) = .next t ∧ t.err = .ok) ∧
    [2, 0, 1].Perm (List.range (streamLen (.encrypt 20) (live 0x2000 0x3000 3))) :=
  ⟨Memory.wf_nil, encrypt_runs rfl rfl (buffers_live (n := 3) (by decide)), by decide⟩

/-- Two ENCRYPTs over consecutive buffers both complete, whatever the split of at most 0x800 bytes. -/
theorem split_runs {n1 n2 : DWord} (h : n1.toNat + n2.toNat ≤ 0x800) : ∃ t1 t2,
    exec (.encrypt 20) { live 0x2000 0x3000 0 with a2 := n1 } = .next t1 ∧ t1.err = .ok ∧
    exec (.encrypt 20) { t1 with a0 := (live 0x2000 0x3000 0).a0 + n1, a1 := (live 0x2000 0x3000 0).a1 + n1, a2 := n2 } =
      .next t2 ∧ t2.err = .ok := by
  obtain ⟨t1, h1, e1⟩ := encrypt_runs (r := 20) (s := live 0x2000 0x3000 n1) rfl rfl (buffers_live (by omega))
  obtain ⟨-, -, -, -, he, -⟩ := encrypt_completed (s := live 0x2000 0x3000 n1) Memory.wf_nil h1 e1
  have a0 : ((0x2000 : DWord) + n1).toNat = 0x2000 + n1.toNat := by rw [BitVec.toNat_add]; simp; omega
  have a1 : ((0x3000 : DWord) + n1).toNat = 0x3000 + n1.toNat := by rw [BitVec.toNat_add]; simp; omega
  have hb : BuffersOk { t1 with a0 := 0x2000 + n1, a1 := 0x3000 + n1, a2 := n2 } n2.toNat :=
    buffers_low (by rw [he]; rfl) a0 a1 (by omega) (by omega) (by omega) (by omega) (.inr (.inr (.inl (by omega))))
  obtain ⟨t2, h2, e2⟩ := encrypt_runs (r := 20) (s := { t1 with a0 := 0x2000 + n1, a1 := 0x3000 + n1, a2 := n2 }) rfl
    (by rw [he]; rfl) hb
  exact ⟨t1, t2, h1, e1, h2, e2⟩

/-- T9 and T10's splits, and N2 = 0. -/
theorem test_witness_SplitStreamsMeetAtWholeBlocks :
    (live 0x2000 0x3000 0).mem.wf ∧ (live 0x2000 0x3000 0).cfg.wellFormed = true ∧
    (6 : DWord).toNat + (64 : DWord).toNat < 2 ^ 64 ∧ BuffersOk (live 0x2000 0x3000 0) (6 + 64) ∧ (64 : DWord).toNat % 64 = 0 ∧
    ∀ p ∈ ([(6, 64), (64, 6), (70, 0)] : List (DWord × DWord)), ∃ t1 t2,
      exec (.encrypt 20) { live 0x2000 0x3000 0 with a2 := p.1 } = .next t1 ∧ t1.err = .ok ∧
      exec (.encrypt 20) { t1 with a0 := (live 0x2000 0x3000 0).a0 + p.1, a1 := (live 0x2000 0x3000 0).a1 + p.1, a2 := p.2 } =
        .next t2 ∧ t2.err = .ok := by
  refine ⟨Memory.wf_nil, by decide, by decide, buffers_live (n := 70) (by decide), by decide, fun p hp => ?_⟩
  simp only [List.mem_cons, List.not_mem_nil, or_false] at hp
  rcases hp with rfl | rfl | rfl <;> exact split_runs (by decide)

/-- The second run's output in place, and in a buffer of its own. -/
theorem test_witness_EncryptIsItsOwnInverse : (live 0x2000 0x3000 70).mem.wf ∧
    ∃ t, exec (.encrypt 20) (live 0x2000 0x3000 70) = .next t ∧ t.err = .ok ∧
      ∀ o ∈ ([0x3000, 0x4000] : List DWord), ∃ u, exec (.encrypt 20)
        { t with S := (live 0x2000 0x3000 70).S, a0 := (live 0x2000 0x3000 70).a1, a1 := o } = .next u ∧ u.err = .ok := by
  obtain ⟨t, h, e⟩ := encrypt_runs (r := 20) (s := live 0x2000 0x3000 70) rfl rfl (buffers_live (by decide))
  refine ⟨Memory.wf_nil, t, h, e, fun o ho => ?_⟩
  obtain ⟨-, -, -, -, he, -⟩ := encrypt_completed (s := live 0x2000 0x3000 70) Memory.wf_nil h e
  have ha : t.a2 = 70 := by rw [he]; rfl
  refine encrypt_runs rfl (by rw [he]; rfl) ?_
  show BuffersOk _ t.a2.toNat
  rw [ha]
  simp only [List.mem_cons, List.not_mem_nil, or_false] at ho
  rcases ho with rfl | rfl
  · exact buffers_low (i := 0x3000) (o := 0x3000) (by rw [he]; rfl) rfl rfl (by decide) (by decide) (by decide) (by decide) (.inl rfl)
  · exact buffers_low (i := 0x3000) (o := 0x4000) (by rw [he]; rfl) rfl rfl (by decide) (by decide) (by decide) (by decide)
      (.inr (.inr (.inl (by decide))))

/-- T6 and T7's lengths. -/
theorem test_witness_ShorterEncryptIsAPrefix : (live 0x2000 0x3000 0).mem.wf ∧ (70 : DWord).toNat ≤ (128 : DWord).toNat ∧
    (∃ t, exec (.encrypt 20) { live 0x2000 0x3000 0 with a2 := 70 } = .next t ∧ t.err = .ok) ∧
    ∃ t, exec (.encrypt 20) { live 0x2000 0x3000 0 with a2 := 128 } = .next t ∧ t.err = .ok :=
  ⟨Memory.wf_nil, by decide, encrypt_runs rfl rfl (buffers_live (n := 70) (by decide)),
    encrypt_runs rfl rfl (buffers_live (n := 128) (by decide))⟩

/-- R201's example: `BLOCK.A 19` with `STRIDE_A` = 0 and VALID = 0 has three causes, and BAD_ROUNDS has the smallest code;
and a command with no cause. -/
theorem test_witness_TheSmallestApplyingCodeIsReported :
    (Cause (.blockA 19) { fresh 0x2000 0x3000 0 with cfg := cfgScalar } .badRounds ∧
      Cause (.blockA 19) { fresh 0x2000 0x3000 0 with cfg := cfgScalar } .unavailable ∧
      ∀ g, Cause (.blockA 19) { fresh 0x2000 0x3000 0 with cfg := cfgScalar } g → FaultCode.badRounds.code ≤ g.code) ∧
    ∀ f, ¬ Cause (.encrypt 20) (live 0x2000 0x3000 70) f := by
  refine ⟨⟨⟨19, rfl, rfl⟩, rfl, fun g hg => ?_⟩, fun f hf => ?_⟩
  · cases g
    case badKeybits => exact absurd hg.1 (by simp)
    all_goals first | exact hg.elim | decide
  · have h := (checks_encrypt 20 (live 0x2000 0x3000 70)).2 ⟨rfl, rfl, buffers_live (n := 70) (by decide)⟩
    exact absurd (firstFault_eq_none.1 h _ ((mem_checksOf _ _ f).2 hf)) (by simp)

theorem test_witness_AFaultingCommandChangesOnlyItsRecord : ∃ t, issue 0x00000000 (live 0 0 0) = .next t ∧
    t.err = .fault .illegalOpcode := ⟨_, rfl, rfl⟩

/-- A command with a cause, and one with none over a State whose ERR and FAULT hold an earlier fault, which completes. -/
theorem test_witness_ACompletingCommandClearsErrAndKeepsFault :
    Cause (.blockS 19) (live 0 0 0) .badRounds ∧
    (∀ f, ¬ Cause (.encrypt 20) { live 0x2000 0x3000 70 with err := .fault .overlap, first := .fault .range } f) ∧
    ∃ t, exec (.encrypt 20) { live 0x2000 0x3000 70 with err := .fault .overlap, first := .fault .range } = .next t ∧
      t.err = .ok ∧ t.first = .fault .range := by
  have h := (checks_encrypt 20 { live 0x2000 0x3000 70 with err := .fault .overlap, first := .fault .range }).2
    ⟨rfl, rfl, buffers_live (n := 70) (by decide)⟩
  exact ⟨⟨19, rfl, rfl⟩, fun f hf => absurd (firstFault_eq_none.1 h _ ((mem_checksOf _ _ f).2 hf)) (by simp),
    ⟨_, exec_of_pass h, rfl, rfl⟩⟩

/-- A command, and a read, after a fault. -/
theorem test_witness_FirstFaultIsStickyUntilReset : ∀ op ∈ [HostOp.wr 0x000 0x00000000, .rd 0x004],
    ({ live 0 0 0 with first := .fault .overlap } : State).first ≠ .ok ∧
    ({ live 0 0 0 with first := .fault .overlap, host := [op] } : State).host.head? ≠ some .reset ∧
    ∃ t, step { live 0 0 0 with first := .fault .overlap, host := [op] } = .next t := by
  intro op hop
  simp only [List.mem_cons, List.not_mem_nil, or_false] at hop
  rcases hop with rfl | rfl <;> exact ⟨by decide, by simp, ⟨_, rfl⟩⟩

theorem test_witness_FieldValueFaults : 1 % 2 = 1 ∧ 255 % 2 = 1 ∧ (live 0 0 0).cfg.key128 = none ∧
    (live 0x2000 0x3000 64).valid = true ∧ BuffersOk (live 0x2000 0x3000 64) 64 ∧
    stride? (.blockA 0) (live 0x2000 0x3000 64) ≠ some 0 ∧ stride? (.blockB 0) (live 0x2000 0x3000 64) ≠ some 0 ∧
    64 = streamLen (.blockA 0) (live 0x2000 0x3000 64) ∧ 64 = streamLen (.encrypt 0) (live 0x2000 0x3000 64) :=
  ⟨rfl, rfl, rfl, rfl, buffers_live (n := 64) (by decide), by decide, by decide, rfl, rfl⟩

theorem test_witness_UnavailableAndUninitialisedFaults : 20 % 2 = 0 ∧ cfgScalar.strideA = 0 ∧ cfgScalar.strideB = 0 ∧
    (fresh 0 0 0).valid = false ∧ stride? (.blockB 20) (fresh 0 0 0) ≠ some 0 ∧ stride? (.encrypt 20) (fresh 0 0 0) ≠ some 0 := by
  decide

/-- F12, F13 and F16's buffers, and the last base inside a narrow space. -/
theorem test_witness_RangeThenOverlapThenBus : 20 % 2 = 0 ∧ (live 0 0 0).valid = true ∧
    stride? (.encrypt 20) (live 0 0 0) ≠ some 0 ∧ ¬ InSpace Config.reference 0xfffffffffffffff0 32 ∧
    ¬ InSpace cfgNarrow 0x10000 0 ∧ InSpace cfgNarrow 0xffff 1 ∧ ¬ InSpace cfgNarrow 0xffff 2 ∧
    InSpace Config.reference 0x2000 64 ∧ InSpace Config.reference 0x203f 64 ∧ ¬ NoClash 0x2000 0x203f 64 ∧
    NoClash 0x2000 0x2040 64 ∧ memOK Config.reference 0x10000 = false ∧ InSpace Config.reference 0xfff0 32 := by
  unfold InSpace NoClash
  decide +kernel

theorem test_witness_SetupFrame : (∃ t, exec .setupRfc (fresh 0x1000 0x1020 1) = .next t ∧ t.err = .ok) ∧
    ∃ t, exec (.setupExt false) (fresh 0x1000 0 0) = .next t ∧ t.err = .ok :=
  ⟨⟨_, exec_of_pass ((checks_setupRfc _).2 ⟨reachable_low (b := 0x1000) (by decide) (by decide),
      reachable_low (b := 0x1020) (by decide) (by decide)⟩), rfl⟩,
    ⟨_, exec_of_pass ((checks_setupExt false _).2 ⟨by simp, reachable_low (b := 0x1000) (by decide) (by decide)⟩), rfl⟩⟩

/-- A completing ENCRYPT, the words around the counter, and the addresses at both ends of its output. -/
theorem test_witness_BlockProducerFrame :
    (∃ t, exec (.encrypt 20) (live 0x2000 0x3000 70) = .next t ∧ t.err = .ok) ∧ (live 0 0 0).layout = .rfc ∧
    (13 : Fin 16) ≠ 12 ∧ (11 : Fin 16) ≠ 13 ∧ 0x2fff < outAddr (live 0x2000 0x3000 70) ∧
    outAddr (live 0x2000 0x3000 70) + streamLen (.encrypt 20) (live 0x2000 0x3000 70) ≤ 0x3046 :=
  ⟨encrypt_runs rfl rfl (buffers_live (n := 70) (by decide)), rfl, by decide, by decide, by decide, by decide⟩

/-- Two memories that differ just below and just above the bytes read. -/
theorem test_witness_CommandsReadOnlyTheirFootprint :
    (live 0x2000 0x3000 70).mem.wf ∧ Memory.wf [(0x1fff, 1), (0x2046, 2)] ∧
    (∀ a, InFootprint (reads (.encrypt 20) (live 0x2000 0x3000 70)) a →
      Memory.read [(0x1fff, 1), (0x2046, 2)] a = (live 0x2000 0x3000 70).mem.read a) ∧
    (∃ t, exec (.encrypt 20) (live 0x2000 0x3000 70) = .next t ∧ t.err = .ok) ∧
    ∃ t, exec (.encrypt 20) { live 0x2000 0x3000 70 with mem := [(0x1fff, 1), (0x2046, 2)] } = .next t := by
  refine ⟨Memory.wf_nil, by decide, ?_, encrypt_runs rfl rfl (buffers_live (n := 70) (by decide)),
    ⟨_, exec_of_pass ((checks_encrypt 20 _).2 ⟨rfl, rfl, buffers_live (n := 70) (by decide)⟩)⟩⟩
  rintro a ⟨p, hp, h1, h2⟩
  rw [show reads (.encrypt 20) (live 0x2000 0x3000 70) = [⟨0x2000, 70⟩] from rfl, List.mem_singleton] at hp
  subst hp
  show Memory.read [(0x1fff, 1), (0x2046, 2)] a = 0
  rw [Memory.read_cons_cell, if_neg (by simp only at h1; omega), Memory.read_cons_cell, if_neg (by simp only at h2; omega)]
  rfl

/-- A step that issues `ENCRYPT 20`. -/
theorem test_witness_OnlySetupWritesKeyConstantsAndNonce :
    (∃ t, step { live 0x2000 0x3000 70 with host := [.wr 0x000 0x1420] } = .next t ∧ t.err = .ok) ∧
    ({ live 0x2000 0x3000 70 with host := [.wr 0x000 0x1420] } : State).host.head? ≠ some .reset ∧
    (∀ v k rest, [HostOp.wr 0x000 0x1420] = .wr 0x000 v :: rest → decode v ≠ .ok .setupRfc ∧ decode v ≠ .ok (.setupExt k)) ∧
    (0 : Fin 16) ≠ 12 ∧ (13 : Fin 16) ≠ 12 ∧ (live 0x2000 0x3000 70).layout = .rfc := by
  refine ⟨encrypt_runs (r := 20) (s := live 0x2000 0x3000 70) rfl rfl (buffers_live (n := 70) (by decide)), by simp, ?_,
    by decide, by decide, rfl⟩
  intro v k rest h
  obtain ⟨h, -⟩ := List.cons.inj h
  injection h with _ hv
  subst hv
  have hd : decode 0x1420 = .ok (.encrypt 20) := by decide
  exact ⟨(fun h => nomatch hd.symm.trans h), fun h => nomatch (hd.symm.trans h)⟩

/-- A SETUP.EXT over a State in the RFC layout, and a reset. -/
theorem test_witness_OnlySetupAndResetWriteValidAndLayout :
    (∃ t, step { live 0x1000 0 0 with host := [.wr 0x000 0x00000002] } = .next t ∧ t.layout ≠ (live 0x1000 0 0).layout) ∧
    ∃ t, step { live 0 0 0 with host := [.reset] } = .next t ∧ t.valid ≠ (live 0 0 0).valid :=
  ⟨⟨_, exec_of_pass (i := .setupExt false) (s := live 0x1000 0 0)
      ((checks_setupExt false _).2 ⟨by simp, reachable_low (b := 0x1000) (by decide) (by decide)⟩), by
      show Layout.ext ≠ Layout.rfc; decide⟩,
    ⟨_, rfl, by decide⟩⟩

theorem test_witness_CapabilitiesNeverChange : ∃ t, step { live 0 0 0 with host := [.reset] } = .next t := ⟨_, rfl⟩

theorem test_witness_RegisterReadsAnswerTheRegisterMap : ∀ reg ∈ [Reg.cmd, .reserved 0, .reserved 5, .word 0, .word 15],
    ({ live 0 0 0 with host := [.rd reg.offset] } : State).host = .rd reg.offset :: [] := fun _ _ => rfl

theorem test_witness_RegisterWritesChangeOnlyTheRegister : ∀ reg ∈ [Reg.status, .a0Lo, .a2Hi, .reserved 5, .word 15],
    reg ≠ .cmd ∧ ({ live 0 0 0 with host := [.wr reg.offset 7] } : State).host = .wr reg.offset 7 :: [] ∧ Reg.a1Lo ≠ reg := by
  intro reg h
  refine ⟨?_, rfl, ?_⟩ <;> rintro rfl <;> simp at h

/-- The first offset past the window, the last offset of it, and an offset that is no multiple of 4. -/
theorem test_witness_UnadmittedRegisterAccessesAreRefused :
    0x080 ≤ 0x080 ∧ 0x07E % 4 ≠ 0 ∧ (0x07C % 4 = 0 ∧ 0x07C < 0x080) ∧ 0x000 % 4 = 0 ∧
    ({ live 0 0 0 with host := [.wr 0x080 1] } : State).host = .wr 0x080 1 :: [] := by decide

/-- The last two backed bytes, written and read. -/
theorem test_witness_HostMemoryWritesReadBack : keyMem.wf ∧
    ({ fresh 0 0 0 with host := [.memWr 0xfffe [0, 9], .memRd (0xfffe + 1)] } : State).host =
      .memWr 0xfffe [0, 9] :: .memRd (0xfffe + 1) :: [] ∧
    Reachable (fresh 0 0 0).cfg 0xfffe [(0 : Byte), 9].length ∧ [(0 : Byte), 9][1]? = some 9 ∧
    0xfffd < 0xfffe ∧ 0xfffe + [(0 : Byte), 9].length ≤ 0x10000 ∧
    0xffff < 2 ^ (fresh 0 0 0).cfg.addrW ∧ memOK (fresh 0 0 0).cfg 0xffff = true :=
  ⟨keyMem_wf, rfl, reachable_low (by decide) (by decide), rfl, by decide, by decide, by decide, by decide +kernel⟩

theorem test_witness_PseudoWriteSetsTheArgumentRegister :
    ({ live 0 0 0 with host := writeArg .a2 0x0123456789abcdef } : State).host = writeArg .a2 0x0123456789abcdef ++ [] ∧
    Reg.a2Lo ≠ .cmd ∧ Reg.a2Hi ≠ .cmd ∧ Reg.a2Lo ≠ .a2Hi := by
  decide +kernel

/-- The greatest round count that has a line, and the first that has none. -/
theorem test_witness_HostLinesExpandAsTabled : (Instr.blockA 255).wellFormed = true ∧ 255 ≤ 255 ∧ 255 < 256 := by decide

/-- A line of each pseudo-instruction that has actions, at both ends of the round counts. -/
theorem test_witness_PseudoInstructionsRunTheirCommand : ∀ line ∈ [HostLine.setupRfc 0x1000 0x1020 1, .setupExt 0x1000 7,
    .setupExt128 0x1000 7, .blockS 0x2000 0x3000 0, .blockA 0x2000 0x3000 255, .blockB 0x2000 0x3000,
    .encrypt 0x2000 0x3000 70 19, .decrypt 0x3000 0x2000 70, .chacha20 0x2000 0x3000 70],
    ∃ ops, line.expand = some ops ∧ ({ live 0 0 0 with host := ops ++ [.reset] } : State).host = ops ++ [.reset] := by
  intro line h
  refine ⟨(line.expand).getD [], ?_, rfl⟩
  simp only [List.mem_cons, List.not_mem_nil, or_false] at h
  rcases h with rfl | rfl | rfl | rfl | rfl | rfl | rfl | rfl | rfl <;> rfl

/-- A write over the edge of backed memory and a read past a narrow space, each with the first byte out of reach, and the
last byte that both reach. -/
theorem test_witness_HostMemoryAccessesStopAtTheFirstUnreachableByte :
    (∀ b, 0xffff ≤ b → b < 0x10000 → b < 2 ^ Config.reference.addrW ∧ memOK Config.reference b = true) ∧
    0x10000 < 0xffff + [(1 : Byte), 2].length ∧ 0x10000 < 2 ^ Config.reference.addrW ∧ memOK Config.reference 0x10000 = false ∧
    2 ^ cfgNarrow.addrW ≤ 0x10000 ∧ 0xffff < 2 ^ cfgNarrow.addrW ∧ memOK cfgNarrow 0xffff = true ∧
    step { live 0 0 0 with host := [.memWr 0xffff [1, 2]] } = .fault (.unbackedByte 0x10000) ∧
    step { live 0 0 0 with cfg := cfgNarrow, host := [.memRd 0x10000] } = .fault (.outsideBuffer 0x10000) := by
  refine ⟨fun b h1 h2 => ?_, by decide, by decide, by decide +kernel, by decide, by decide, by decide +kernel, rfl, rfl⟩
  obtain rfl : b = 0xffff := by omega
  exact ⟨by decide, by decide +kernel⟩

theorem test_witness_ResetClearsTheBlockAndKeepsMemory : ({ live 1 2 3 with host := [.reset, .rd 0x004] } : State).host =
    .reset :: [.rd 0x004] := rfl

/-- A State set up by SETUP.RFC meets the invariant, and a step runs from it. -/
theorem test_witness_EveryStepKeepsTheInvariant : Inv { live 0x2000 0x3000 70 with host := [.wr 0x000 0x1420] } ∧
    ∃ t, step { live 0x2000 0x3000 70 with host := [.wr 0x000 0x1420] } = .next t ∧ t.err = .ok :=
  ⟨{ memCanonical := Memory.wf_nil
     memBacked := by intro c hc; cases hc
     errCovered := fun _ => rfl
     setUpRows := fun _ => .inl (by decide +kernel)
     unsetState := by intro h; cases h
     codesPossible := ⟨trivial, trivial⟩ },
    encrypt_runs (r := 20) (s := live 0x2000 0x3000 70) rfl rfl (buffers_live (n := 70) (by decide))⟩

end Sys2Proof.Tests
end

section
/-! The step when the host has no action pending (00_scope.md R5, 70_reset_and_hazards.md R221). -/

namespace Sys2Proof.Machine

/-- The equation of `step` for an empty list of actions; `step_of_host` is the one for a pending action. -/
theorem step_of_host_nil {s : State} (h : s.host = []) : step s = .next s := by
  unfold step nextAction
  rw [h]

/-- Settles O8: the step's empty-list case answers the state it was given (log 2). -/
theorem stepWithNoHostActionWaits : Obligations.StepWithNoHostActionWaits :=
  fun _ h => step_of_host_nil h

end Sys2Proof.Machine
end

section
/-! What a command of each kind keeps: the frames of SETUP and of the block producers (10_state.md R27, R33). -/

namespace Sys2Proof.Machine

/-! ### What an effect is -/

/-- A SETUP's effect is the loading of its State words (R121, R123). -/
theorem effectOf_setup {i : Instr} (s : State) (hi : i = .setupRfc ∨ ∃ k, i = .setupExt k) :
    ∃ l S, effectOf i s = setUp l S s := by
  rcases hi with rfl | ⟨k, rfl⟩ <;> exact ⟨_, _, rfl⟩

/-- A block producer whose checks pass has a State set up and admitted buffers for its stream (R140, R161). -/
theorem checks_producer {i : Instr} {r : Nat} {s : State}
    (hi : i ∈ [Instr.blockS r, .blockA r, .blockB r, .encrypt r]) (h : firstFault (checksOf i s) = none) :
    s.valid = true ∧ BuffersOk s (streamLen i s) := by
  simp only [List.mem_cons, List.not_mem_nil, or_false] at hi
  rcases hi with rfl | rfl | rfl | rfl
  · exact ((checks_blockS r s).1 h).2
  · exact ((checks_blockA r s).1 h).2.2
  · exact ((checks_blockB r s).1 h).2.2
  · exact ((checks_encrypt r s).1 h).2

/-- A command that changes VALID or LAYOUT has not faulted (R202). -/
theorem completed_of_changed {i : Instr} {s t : State} (h : exec i s = .next t)
    (hc : t.valid ≠ s.valid ∨ t.layout ≠ s.layout) : t = complete (effectOf i s) := by
  rcases exec_cases h with ⟨f, -, rfl⟩ | ⟨-, ht⟩
  · simp at hc
  · exact ht

/-! ### The frames -/

/-- Settles O42: a fault changes only its record, and the effect of a SETUP is `setUp`, which writes none of these. -/
theorem setupFrame : Obligations.SetupFrame := by
  intro i s t hi h
  rcases exec_cases h with ⟨f, -, rfl⟩ | ⟨-, rfl⟩
  · simp
  · obtain ⟨l, S, he⟩ := effectOf_setup s hi
    simp [he]

/-- Settles O43: a fault changes only its record, and the effect of a block producer is `produce` at its stream's length,
which advances the counter and writes inside the output range. -/
theorem blockProducerFrame : Obligations.BlockProducerFrame := by
  intro i r s t hi h
  rcases exec_cases h with ⟨f, -, rfl⟩ | ⟨-, rfl⟩
  · simp
  · obtain ⟨n, he⟩ := effectOf_stream s hi
    rw [he]
    exact ⟨rfl, rfl, rfl, rfl, rfl, rfl, rfl, rfl, fun m h12 h13 => getElem_advance s.layout s.S n m h12 h13,
      fun a ha => produce_mem_outside r _ n s ha⟩

/-- Settles O40: with an even count BAD_ROUNDS passes, so the first check that fails is the one on the stride, and after it
the one on VALID (R201). -/
theorem unavailableAndUninitialisedFaults : Obligations.UnavailableAndUninitialisedFaults := by
  intro s r hr
  have hodd : oddRounds r = false := by simp [oddRounds, hr]
  refine ⟨fun hA => exec_of_fault ?_, fun hB => exec_of_fault ?_, fun hv i hi hs => exec_of_fault ?_⟩
  · simp [checksOf, hodd, hA]
  · simp [checksOf, hodd, hB]
  · simp only [List.mem_cons, List.not_mem_nil, or_false] at hi
    rcases hi with rfl | rfl | rfl | rfl
    · simp [checksOf, hodd, hv]
    · have hA : (s.cfg.strideA.val == 0) = false := by simpa [stride?] using hs
      simp [checksOf, hodd, hv, hA]
    · have hB : (s.cfg.strideB.val == 0) = false := by simpa [stride?] using hs
      simp [checksOf, hodd, hv, hB]
    · simp [checksOf, hodd, hv]

end Sys2Proof.Machine
end

section
/-! What a step can do to the block, in four kinds, and what that leaves of the State matrix, VALID and LAYOUT
(10_state.md R25 to R27, R34). -/

namespace Sys2Proof.Machine

/-- The kinds of step. `step_kind` says that there are no others. -/
inductive StepKind (s t : State) : Prop
  /-- A CMD write whose word decodes. -/
  | command {v : Word} {i : Instr} {rest : List HostOp} (hhost : s.host = .wr 0x000 v :: rest)
      (hdec : decode v = .ok i) (hexec : exec i { s with host := rest } = .next t)
  /-- A CMD write whose word is rejected. -/
  | rejected {v : Word} {e : Reject} {rest : List HostOp} (hhost : s.host = .wr 0x000 v :: rest)
      (hdec : decode v = .error e) (heq : t = raise (rejectFault e) { s with host := rest })
  /-- A reset. -/
  | reset {rest : List HostOp} (hhost : s.host = .reset :: rest) (heq : t = resetBlock { s with host := rest })
  /-- Every other access, and waiting: only the argument registers, the host's lists and bytes of memory that the host can
  reach may change (no bytes, where it writes none). -/
  | access {addr : Nat} {bytes : List Byte}
      (hframe : t = { s with a0 := t.a0, a1 := t.a1, a2 := t.a2, mem := t.mem, host := t.host, answers := t.answers })
      (hreach : ∀ a, addr ≤ a → a < addr + bytes.length → a < 2 ^ s.cfg.addrW ∧ memOK s.cfg a = true)
      (hmem : t.mem = s.mem.writeBytes addr bytes)

/-- An access that writes no memory. -/
theorem StepKind.access_of_mem_eq {s t : State}
    (hframe : t = { s with a0 := t.a0, a1 := t.a1, a2 := t.a2, mem := t.mem, host := t.host, answers := t.answers })
    (hmem : t.mem = s.mem) : StepKind s t :=
  .access (addr := 0) (bytes := []) hframe (fun a _ h2 => absurd h2 a.not_lt_zero) hmem

/-- What a step can do, said once. -/
theorem step_kind {s t : State} (h : step s = .next t) : StepKind s t := by
  rcases step_cases h with ⟨-, rfl⟩ | ⟨op, rest, hh, ha⟩
  · exact .access_of_mem_eq rfl rfl
  · rcases hostAction_cases ha with ⟨v, rfl, hv⟩ | ⟨off, v, reg, -, -, -, rfl⟩ | ⟨ans, -, rfl⟩ |
      ⟨addr, bytes, -, hf, rfl⟩ | ⟨ans, -, rfl⟩ | ⟨rfl, rfl⟩
    · rcases issue_cases hv with ⟨e, he, rfl⟩ | ⟨i, hi, hx⟩
      · exact .rejected hh he rfl
      · exact .command hh hi hx
    · exact .access_of_mem_eq (by cases reg <;> rfl) (by cases reg <;> rfl)
    · exact .access_of_mem_eq rfl rfl
    · exact .access rfl (hostMemFault_eq_none.1 hf) rfl
    · exact .access_of_mem_eq rfl rfl
    · exact .reset hh rfl

/-- Settles O45: of the steps allowed here only a block producer writes the State matrix, and its frame excludes these
words. -/
theorem onlySetupWritesKeyConstantsAndNonce : Obligations.OnlySetupWritesKeyConstantsAndNonce := by
  intro s t h hreset hsetup n h12 h13
  cases step_kind h with
  | @command v i rest hhost hdec hexec =>
    rcases instr_kind i with rfl | ⟨k, rfl⟩ | ⟨r, hi⟩
    · exact absurd hdec (hsetup v false rest hhost).1
    · exact absurd hdec (hsetup v k rest hhost).2
    · obtain ⟨-, -, -, -, -, -, -, -, hS, -⟩ := blockProducerFrame i r _ t hi hexec
      exact hS n h12 h13
  | rejected _ _ heq => rw [heq, raise_S]
  | reset hhost _ => simp [hhost] at hreset
  | access hframe _ _ => rw [hframe]

/-- Settles O46: a command that changes VALID or LAYOUT has completed and is no block producer, so it is a SETUP, which sets
both. -/
theorem onlySetupAndResetWriteValidAndLayout : Obligations.OnlySetupAndResetWriteValidAndLayout := by
  intro s t h hc
  cases step_kind h with
  | @command v i rest hhost hdec hexec =>
    obtain rfl := completed_of_changed hexec hc
    rcases instr_kind i with rfl | ⟨k, rfl⟩ | ⟨r, hi⟩
    · exact .inr ⟨v, rest, hhost, rfl, rfl, .inl ⟨hdec, rfl⟩⟩
    · exact .inr ⟨v, rest, hhost, rfl, rfl, .inr ⟨k, hdec, rfl⟩⟩
    · obtain ⟨-, hvalid, hlayout, -⟩ := blockProducerFrame i r _ _ hi hexec
      exact hc.elim (absurd hvalid) (absurd hlayout)
  | rejected _ _ heq => simp [heq] at hc
  | reset hhost _ => exact .inl (by rw [hhost]; rfl)
  | access hframe _ _ =>
    rw [hframe] at hc
    simp at hc

end Sys2Proof.Machine
end

section
/-! The invariant: it holds at reset, and each kind of step keeps it (10_state.md R21, R26, R39). -/

namespace Sys2Proof.Machine

/-! ### Rows of the State matrix -/

/-- The rows a State matrix was made of (R7). -/
theorem row_ofRows (r0 r1 r2 r3 : Row) :
    row (ofRows r0 r1 r2 r3) 0 = r0 ∧ row (ofRows r0 r1 r2 r3) 1 = r1 ∧ row (ofRows r0 r1 r2 r3) 2 = r2 := by
  refine ⟨?_, ?_, ?_⟩ <;> refine Vector.ext fun j hj => ?_ <;> interval_cases j <;> rfl

/-- Advancing the counter leaves the rows of the constants and the key (R27). -/
theorem row_advance (l : Layout) (S : StateWords) (k : Nat) {r : Fin 4} (hr : r ≠ 3) :
    row (advance l S k) r = row S r := by
  have hword : ∀ j : Fin 16, j.val < 12 → (advance l S k)[j.val] = S[j.val] := fun j hj =>
    getElem_advance l S k j (by rintro rfl; omega) (.inl (by rintro rfl; omega))
  have hr' : r.val < 3 := by omega
  simp only [row]
  rw [hword ⟨4 * r.val, by omega⟩ (by simp; omega), hword ⟨4 * r.val + 1, by omega⟩ (by simp; omega),
    hword ⟨4 * r.val + 2, by omega⟩ (by simp; omega), hword ⟨4 * r.val + 3, by omega⟩ (by simp; omega)]

/-! ### Memory -/

/-- What holds of every listed address and of every address written holds of every address listed after the write. -/
theorem Memory.forall_mem_writeBytes {P : Nat → Prop} {m : Memory} {addr : Nat} {bytes : List Byte}
    (hm : ∀ c ∈ m, P c.1) (hb : ∀ a, addr ≤ a → a < addr + bytes.length → P a) :
    ∀ c ∈ m.writeBytes addr bytes, P c.1 := by
  intro c hc
  rcases Memory.mem_writeBytes hc with h | ⟨h1, h2⟩
  · exact hm c h
  · exact hb c.1 h1 h2

/-! ### Each kind of change keeps the invariant -/

/-- The codes a command reports are ones the configuration can report (R200). -/
theorem codePossible_of_cause {i : Instr} {s : State} {f : FaultCode} (h : Cause i s f) :
    CodePossible s.cfg (.fault f) := by
  cases f with
  | badKeybits => exact h.2
  | unavailable =>
    cases i with
    | blockA r => exact .inl (Fin.ext (Option.some.inj h))
    | blockB r => exact .inr (Fin.ext (Option.some.inj h))
    | _ => simp [Cause, stride?] at h
  | _ => trivial

/-- A fault's record keeps the invariant, when the configuration can report its code (R202, R204). -/
theorem inv_raise {f : FaultCode} {s : State} (hi : Inv s) (hf : CodePossible s.cfg (.fault f)) :
    Inv (raise f s) where
  memCanonical := hi.memCanonical
  memBacked := hi.memBacked
  errCovered := by
    rw [raise_first]
    split
    · simp
    · next hne => exact fun h => absurd h hne
  setUpRows := hi.setUpRows
  unsetState := hi.unsetState
  codesPossible := by
    refine ⟨hf, ?_⟩
    rw [raise_first]
    split
    · exact hf
    · exact hi.codesPossible.2

/-- A SETUP that completes keeps the invariant, when it loads legal rows (R121, R123). -/
theorem inv_complete_setUp {l : Layout} {S : StateWords} {s : State} (hi : Inv s)
    (hrows : row S 0 = sigma ∨ (l = .ext ∧ s.cfg.key128 = some (row S 0) ∧ row S 2 = row S 1)) :
    Inv (complete (setUp l S s)) where
  memCanonical := hi.memCanonical
  memBacked := hi.memBacked
  errCovered := fun _ => rfl
  setUpRows := fun _ => hrows
  unsetState := fun h => by simp at h
  codesPossible := ⟨trivial, hi.codesPossible.2⟩

/-- Production that completes keeps the invariant: it writes only bytes it can reach, and no constant or key word. -/
theorem inv_complete_produce {s : State} (hi : Inv s) (hvalid : s.valid = true) (r n : Nat) {len : Nat}
    (hout : Reachable s.cfg (outAddr s) len) : Inv (complete (produce r len n s)) where
  memCanonical := produce_wf r len n hi.memCanonical
  memBacked := by
    obtain ⟨⟨-, hend⟩, hback⟩ := hout
    refine Memory.forall_mem_writeBytes (P := fun a => a < 2 ^ s.cfg.addrW ∧ memOK s.cfg a = true) hi.memBacked
      fun a h1 h2 => ?_
    rw [length_produced] at h2
    exact ⟨by omega, hback a h1 h2⟩
  errCovered := fun _ => rfl
  setUpRows := fun _ => by
    simp only [complete_S, complete_layout, complete_cfg, produce_S, produce_layout, produce_cfg]
    rw [row_advance _ _ _ (by decide), row_advance _ _ _ (by decide), row_advance _ _ _ (by decide)]
    exact hi.setUpRows hvalid
  unsetState := fun h => by simp [hvalid] at h
  codesPossible := ⟨trivial, hi.codesPossible.2⟩

/-- Reset establishes all of the invariant that is not about memory, and memory stays (R39, R220). -/
theorem inv_resetBlock {s : State} (hwf : s.mem.wf)
    (hback : ∀ c ∈ s.mem, c.1 < 2 ^ s.cfg.addrW ∧ memOK s.cfg c.1 = true) : Inv (resetBlock s) where
  memCanonical := hwf
  memBacked := hback
  errCovered := fun _ => rfl
  setUpRows := fun h => by simp at h
  unsetState := fun _ => ⟨rfl, rfl⟩
  codesPossible := ⟨trivial, trivial⟩

/-- An access of the host touches nothing the invariant speaks of but memory, and there only bytes it can reach. -/
theorem inv_access {s t : State} {addr : Nat} {bytes : List Byte} (hi : Inv s)
    (hframe : t = { s with a0 := t.a0, a1 := t.a1, a2 := t.a2, mem := t.mem, host := t.host, answers := t.answers })
    (hreach : ∀ a, addr ≤ a → a < addr + bytes.length → a < 2 ^ s.cfg.addrW ∧ memOK s.cfg a = true)
    (hmem : t.mem = s.mem.writeBytes addr bytes) : Inv t := by
  rw [hframe, hmem]
  exact {
    memCanonical := Memory.writeBytes_wf hi.memCanonical addr bytes
    memBacked := Memory.forall_mem_writeBytes hi.memBacked hreach
    errCovered := hi.errCovered
    setUpRows := hi.setUpRows
    unsetState := hi.unsetState
    codesPossible := hi.codesPossible }

/-- The host's actions are no part of the invariant. -/
theorem inv_with_host {s : State} (hi : Inv s) (rest : List HostOp) : Inv { s with host := rest } :=
  ⟨hi.memCanonical, hi.memBacked, hi.errCovered, hi.setUpRows, hi.unsetState, hi.codesPossible⟩

/-- The rows that SETUP.EXT loads: SIGMA, or with a 128-bit key K128_CONST over a doubled key (R124 to R126). -/
theorem row_extWords {k : Bool} {s : State} (hk : k = true → s.cfg.key128 ≠ none) :
    row (extWords k s) 0 = sigma ∨
      (s.cfg.key128 = some (row (extWords k s) 0) ∧ row (extWords k s) 2 = row (extWords k s) 1) := by
  cases k with
  | false => exact .inl (row_ofRows _ _ _ _).1
  | true =>
    obtain ⟨c, hc⟩ := Option.ne_none_iff_exists'.1 (hk rfl)
    obtain ⟨h0, h1, h2⟩ := row_ofRows (s.cfg.key128.getD sigma) (s.mem.readRow (keyAddr s))
      (s.mem.readRow (keyAddr s)) (extRow3 s)
    refine .inr ⟨?_, h2.trans h1.symm⟩
    rw [show row (extWords true s) 0 = s.cfg.key128.getD sigma from h0, hc, Option.getD_some]

/-- Every command keeps the invariant, completing or faulting. -/
theorem inv_exec {i : Instr} {s t : State} (hi : Inv s) (h : exec i s = .next t) : Inv t := by
  rcases exec_cases h with ⟨f, hf, rfl⟩ | ⟨hpass, rfl⟩
  · exact inv_raise hi (codePossible_of_cause ((mem_checksOf i s f).1 (firstFault_mem hf)))
  · rcases instr_kind i with rfl | ⟨k, rfl⟩ | ⟨r, hr⟩
    · exact inv_complete_setUp hi (.inl (row_ofRows _ _ _ _).1)
    · exact inv_complete_setUp hi ((row_extWords ((checks_setupExt k s).1 hpass).1).imp_right fun h => ⟨rfl, h⟩)
    · obtain ⟨n, he⟩ := effectOf_stream s hr
      obtain ⟨hvalid, -, hout, -⟩ := checks_producer hr hpass
      rw [he]
      exact inv_complete_produce hi hvalid r n hout

/-- Settles O57: each of the four kinds of step keeps the invariant. -/
theorem everyStepKeepsTheInvariant : Obligations.EveryStepKeepsTheInvariant := by
  intro s t hi h
  cases step_kind h with
  | command _ _ hexec => exact inv_exec (inv_with_host hi _) hexec
  | @rejected _ e _ _ _ heq =>
    rw [heq]
    exact inv_raise (inv_with_host hi _) (by cases e <;> trivial)
  | reset _ heq =>
    rw [heq]
    exact inv_resetBlock hi.memCanonical hi.memBacked
  | access hframe hreach hmem => exact inv_access hi hframe hreach hmem

/-- Settles O56: the state after reset is the reset of itself, with nothing listed in memory. -/
theorem resetMeetsTheInvariant : Obligations.ResetMeetsTheInvariant := by
  have h : ∀ c : Config, Inv (State.resetFor c) := fun c =>
    inv_resetBlock (s := State.resetFor c) Memory.wf_nil (by simp [State.resetFor])
  exact ⟨h, h Config.reference⟩

end Sys2Proof.Machine
end

section
/-! The register window (10_state.md R28 to R36): the read-only registers' fields, reads, writes, and refused accesses. -/

namespace Sys2Proof.Machine

/-! ### Codes and fields -/

/-- The code with a given number (R200): OK at 0, and at the numbers above 9, which are no code's. -/
def Code.ofNumber : Nat → Code
  | 1 => .fault .illegalOpcode
  | 2 => .fault .reservedBits
  | 3 => .fault .badKeybits
  | 4 => .fault .badRounds
  | 5 => .fault .unavailable
  | 6 => .fault .notInit
  | 7 => .fault .range
  | 8 => .fault .overlap
  | 9 => .fault .bus
  | _ => .ok

/-- The number of a code names it. -/
theorem Code.ofNumber_toByte (c : Code) : Code.ofNumber c.toByte.toNat = c := by
  cases c with
  | ok => rfl
  | fault f => cases f <;> rfl

/-- No two codes share a number (R200). -/
theorem Code.toByte_toNat_injective : Function.Injective fun c : Code => c.toByte.toNat :=
  Function.LeftInverse.injective Code.ofNumber_toByte

/-- A field above `m` lower bits, as a number. -/
theorem toNat_append_eq_add {n m : Nat} (x : BitVec n) (y : BitVec m) :
    (x ++ y).toNat = 2 ^ m * x.toNat + y.toNat := by
  rw [BitVec.toNat_append, ← Nat.shiftLeft_add_eq_or_of_lt y.isLt, Nat.shiftLeft_eq, Nat.mul_comm]

theorem statusWord_toNat (s : State) : (statusWord s).toNat =
    s.err.toByte.toNat + 2 ^ 8 * (if s.valid then 1 else 0) + 2 ^ 9 * (if s.layout = .ext then 1 else 0) := by
  show (0#22 ++ BitVec.ofBool s.layout.bit ++ BitVec.ofBool s.valid ++ s.err.toByte : BitVec (22 + 1 + 1 + 8)).toNat = _
  simp only [toNat_append_eq_add]
  cases s.layout <;> cases s.valid <;> simp [Layout.bit] <;> omega

theorem faultWord_toNat (s : State) : (faultWord s).toNat = s.first.toByte.toNat := by
  show (0#24 ++ s.first.toByte : BitVec (24 + 8)).toNat = _
  rw [toNat_append_eq_add]
  simp

theorem capWord_toNat (c : Config) : (capWord c).toNat = 1 + 2 ^ 8 * c.strideA.val + 2 ^ 16 * c.strideB.val +
    2 ^ 24 * (if c.key128.isSome then 1 else 0) := by
  have hA := c.strideA.isLt
  have hB := c.strideB.isLt
  show (0#7 ++ BitVec.ofBool c.key128.isSome ++ BitVec.ofNat 8 c.strideB ++ BitVec.ofNat 8 c.strideA ++ 1#8 :
    BitVec (7 + 1 + 8 + 8 + 8)).toNat = _
  simp only [toNat_append_eq_add]
  cases c.key128.isSome <;> simp <;> omega

/-- Settles O48: the words' fields as sums, of which ERR and FIRST are the lowest, and no two codes share a number. -/
theorem statusFaultAndCapFields : Obligations.StatusFaultAndCapFields := by
  refine ⟨fun s c hc => ?_, fun s => ⟨statusWord_toNat s, faultWord_toNat s, capWord_toNat s.cfg⟩⟩
  have hnum : c.1.toByte.toNat = c.2 := by
    revert c
    decide
  have herr : (regRead s .status).toNat % 256 = s.err.toByte.toNat := by
    have := s.err.toByte.isLt
    rw [show regRead s .status = statusWord s from rfl, statusWord_toNat]
    omega
  have hcode : ∀ d : Code, d = c.1 ↔ d.toByte.toNat = c.2 := fun d => by
    rw [← hnum]
    exact Code.toByte_toNat_injective.eq_iff.symm
  refine ⟨hnum, ?_, ?_⟩
  · rw [herr, hcode]
  · rw [show regRead s .fault = faultWord s from rfl, faultWord_toNat, hcode]

/-! ### Reads -/

/-- A read at a register's offset is one step. -/
theorem step_of_regRead {s : State} {reg : Reg} {rest : List HostOp} (h : s.host = .rd reg.offset :: rest) :
    step s = .next { s with host := rest, answers := .reg reg.offset (regRead s reg) :: s.answers } := by
  rw [step_of_host h]
  simp only [hostAction, hostRead, ofOffset_offset]
  cases reg <;> rfl

/-- Settles O49: the offsets are computed, the read is one step, and an argument register is its two halves. -/
theorem registerReadsAnswerTheRegisterMap : Obligations.RegisterReadsAnswerTheRegisterMap := by
  refine ⟨by decide, fun i => ⟨rfl, ofOffset_offset (.reserved i)⟩, fun i => ⟨rfl, ofOffset_offset (.word i)⟩,
    fun reg s rest h => step_of_regRead h, fun s => ⟨rfl, fun _ => rfl, fun _ => rfl, ?_, ?_, ?_⟩⟩
  · exact halves_append s.a0
  · exact halves_append s.a1
  · exact halves_append s.a2

/-! ### Writes -/

@[simp] theorem loHalf_setLo (old : DWord) (v : Word) : loHalf (setLo old v) = v := loHalf_append _ _

@[simp] theorem hiHalf_setLo (old : DWord) (v : Word) : hiHalf (setLo old v) = hiHalf old := hiHalf_append _ _

@[simp] theorem loHalf_setHi (old : DWord) (v : Word) : loHalf (setHi old v) = loHalf old := loHalf_append _ _

@[simp] theorem hiHalf_setHi (old : DWord) (v : Word) : hiHalf (setHi old v) = v := hiHalf_append _ _

/-- An argument half reads as written (R36). -/
theorem regRead_regWrite_self (v : Word) (s : State) {reg : Reg}
    (h : reg ∈ [Reg.a0Lo, .a0Hi, .a1Lo, .a1Hi, .a2Lo, .a2Hi]) : regRead (regWrite v s reg) reg = v := by
  simp only [List.mem_cons, List.not_mem_nil, or_false] at h
  rcases h with rfl | rfl | rfl | rfl | rfl | rfl <;> simp [regRead, regWrite]

/-- Read-only and reserved registers take no write (R36). -/
theorem regWrite_of_not_mem (v : Word) (s : State) {reg : Reg}
    (h : reg ∉ [Reg.a0Lo, .a0Hi, .a1Lo, .a1Hi, .a2Lo, .a2Hi]) : regWrite v s reg = s := by
  cases reg <;> simp [regWrite] at h ⊢

/-- A register write leaves what every other register reads (R36): it touches only the argument registers, and of the
written one it keeps the other half. -/
theorem regRead_regWrite_of_ne (v : Word) (s : State) {reg other : Reg} (h : other ≠ reg) :
    regRead (regWrite v s reg) other = regRead s other := by
  cases other with
  | a0Lo | a0Hi | a1Lo | a1Hi | a2Lo | a2Hi => cases reg <;> simp [regRead, regWrite] at h ⊢
  | _ => rw [regWrite_frame]; rfl

/-- Settles O50: the step is `regWrite`, and its frame and the reads after it are said above. -/
theorem registerWritesChangeOnlyTheRegister : Obligations.RegisterWritesChangeOnlyTheRegister := by
  intro reg v s rest hreg hhost
  refine ⟨_, step_of_regWrite hreg hhost, regWrite_frame v _ reg, fun h => regRead_regWrite_self v _ h,
    fun h => regWrite_of_not_mem v _ h, fun other ho => ?_⟩
  rw [regRead_regWrite_of_ne v _ ho]
  cases other <;> rfl

/-! ### Issuing and refusing -/

/-- Every command ends in a next state (R11). -/
theorem exec_next (i : Instr) (s : State) : ∃ t, exec i s = .next t := by
  rw [exec_eq_finish]
  rcases finish_cases s (effectOf i s) (checksOf i s) with ⟨f, -, h⟩ | ⟨-, h⟩ <;> exact ⟨_, h⟩

theorem issue_of_decode {v : Word} {i : Instr} (h : decode v = .ok i) (s : State) : issue v s = exec i s := by
  simp only [issue, h]

theorem issue_of_reject {v : Word} {e : Reject} (h : decode v = .error e) (s : State) :
    issue v s = .next (raise (rejectFault e) s) := by
  simp only [issue, h]

/-- Every issued word ends in a next state (R29, R202). -/
theorem issue_next (v : Word) (s : State) : ∃ t, issue v s = .next t := by
  rcases h : decode v with e | i
  · exact ⟨_, issue_of_reject h s⟩
  · rw [issue_of_decode h]
    exact exec_next i s

/-- A write to CMD issues the word (R29). -/
theorem hostWrite_cmd (v : Word) (s : State) : hostWrite 0x000 v s = issue v s := rfl

/-- Settles O7: the step performs the CMD write, and issuing a word that decodes is its command. -/
theorem stepRunsTheDecodedCommand : Obligations.StepRunsTheDecodedCommand := by
  intro s rest v i hhost hdec
  calc step s
    _ = hostWrite 0x000 v { s with host := rest } := step_of_host hhost
    _ = issue v { s with host := rest } := hostWrite_cmd v _
    _ = exec i { s with host := rest } := issue_of_decode hdec _

/-- A host write at a register's offset ends in a next state. -/
theorem hostWrite_next {off : Nat} {reg : Reg} (h : Reg.ofOffset off = some reg) (v : Word) (s : State) :
    ∃ t, hostWrite off v s = .next t := by
  by_cases hc : reg = .cmd
  · subst hc
    simp only [hostWrite, h]
    exact issue_next v s
  · simp only [hostWrite, h]
    exact ⟨_, rfl⟩

/-- Settles O51: `Reg.ofOffset` finds no register exactly at the offsets where R36 gives the host no access. -/
theorem unadmittedRegisterAccessesAreRefused : Obligations.UnadmittedRegisterAccessesAreRefused := by
  intro s rest off v op hop hhost
  rw [step_of_host hhost]
  refine ⟨fun hbad => ?_, fun h4 hlt => ?_⟩
  · have hnone := ofOffset_eq_none.2 hbad
    rcases hop with rfl | rfl <;> simp only [hostAction, hostWrite, hostRead, hnone]
  · have hsome : Reg.ofOffset off ≠ none := mt ofOffset_eq_none.1 (by omega)
    obtain ⟨reg, hreg⟩ := Option.ne_none_iff_exists'.1 hsome
    rcases hop with rfl | rfl
    · exact hostWrite_next hreg v _
    · simp only [hostAction, hostRead, hreg]
      exact ⟨_, rfl⟩

/-! ### The reset state -/

/-- Settles O55: each field is the one `State.resetFor` gives. -/
theorem theResetStateHoldsTheResetValues : Obligations.TheResetStateHoldsTheResetValues := by
  refine ⟨fun n => ?_, rfl, rfl, rfl, rfl, rfl, rfl, rfl, by decide, rfl⟩
  show (Vector.replicate 16 (0 : Word))[n] = 0
  simp

end Sys2Proof.Machine
end

section
/-! The host's accesses to buffer memory between commands (20_memory.md R60, R73): which of them stop, and what the others
do. -/

namespace Sys2Proof.Machine

/-- No byte of a reachable range stops the host (R67, R69). -/
theorem hostMemFault_of_reachable {c : Config} {addr n : Nat} (h : Reachable c addr n) : hostMemFault c addr n = none := by
  obtain ⟨⟨-, hend⟩, hback⟩ := h
  exact hostMemFault_eq_none.2 fun a h1 h2 => ⟨by omega, hback a h1 h2⟩

/-- A host access to memory, a write of `n` bytes or a read of one, stops with the fault of its first byte out of reach. -/
theorem hostAction_of_memFault {op : HostOp} {s : State} {addr n : Nat} {f : Fault}
    (hop : (∃ bytes, op = .memWr addr bytes ∧ n = bytes.length) ∨ (op = .memRd addr ∧ n = 1))
    (h : hostMemFault s.cfg addr n = some f) : hostAction op s = .fault f := by
  rcases hop with ⟨bytes, rfl, rfl⟩ | ⟨rfl, rfl⟩
  · simp only [hostAction, hostMemWrite, h]
  · simp only [hostAction, hostMemRead, h]

theorem hostAction_memWr {s : State} {addr : Nat} {bytes : List Byte}
    (h : hostMemFault s.cfg addr bytes.length = none) :
    hostAction (.memWr addr bytes) s = .next { s with mem := s.mem.writeBytes addr bytes } := by
  simp only [hostAction, hostMemWrite, h]

theorem hostAction_memRd {s : State} {addr : Nat} (h : hostMemFault s.cfg addr 1 = none) :
    hostAction (.memRd addr) s = .next { s with answers := .mem addr (s.mem.read addr) :: s.answers } := by
  simp only [hostAction, hostMemRead, h]

/-- A host write to a reachable range is one step. -/
theorem step_of_memWr {s : State} {addr : Nat} {bytes : List Byte} {rest : List HostOp}
    (hhost : s.host = .memWr addr bytes :: rest) (h : Reachable s.cfg addr bytes.length) :
    step s = .next { s with host := rest, mem := s.mem.writeBytes addr bytes } := by
  rw [step_of_host hhost]
  exact hostAction_memWr (s := { s with host := rest }) (hostMemFault_of_reachable h)

/-- A host read of a byte that exists and is backed is one step. -/
theorem step_of_memRd {s : State} {addr : Nat} {rest : List HostOp} (hhost : s.host = .memRd addr :: rest)
    (h : hostMemFault s.cfg addr 1 = none) :
    step s = .next { s with host := rest, answers := .mem addr (s.mem.read addr) :: s.answers } := by
  rw [step_of_host hhost]
  exact hostAction_memRd (s := { s with host := rest }) h

/-- Settles O52: the write and the read are one step each, and the byte the read answers is the one the write placed. -/
theorem hostMemoryWritesReadBack : Obligations.HostMemoryWritesReadBack := by
  refine ⟨fun s rest addr bytes hm hhost hreach => ?_, fun s rest addr hhost hlt hok => ?_,
    fun s rest addr j b bytes hm hhost hreach hb => ⟨s.mem.writeBytes addr bytes, ?_⟩⟩
  · exact ⟨_, step_of_memWr hhost hreach, Memory.writeBytes_wf hm addr bytes,
      fun j b hb => Memory.read_writeBytes_inside hm hb, fun a ha => Memory.read_writeBytes_outside s.mem bytes ha⟩
  · refine step_of_memRd hhost (hostMemFault_eq_none.2 fun a h1 h2 => ?_)
    obtain rfl : a = addr := by omega
    exact ⟨hlt, hok⟩
  · have hj : j < bytes.length := (List.getElem?_eq_some_iff.1 hb).1
    have hread : hostMemFault s.cfg (addr + j) 1 = none :=
      hostMemFault_eq_none.2 fun a h1 h2 => hostMemFault_eq_none.1 (hostMemFault_of_reachable hreach) a (by omega) (by omega)
    obtain rfl := Memory.read_writeBytes_inside (a := addr) hm hb
    rw [run_of_step (step_of_memWr hhost hreach), run_one]
    exact step_of_memRd rfl hread

/-- Settles O60: the access asks its bytes in rising order, stops at the first that is out of reach, and otherwise goes on. -/
theorem hostMemoryAccessesStopAtTheFirstUnreachableByte :
    Obligations.HostMemoryAccessesStopAtTheFirstUnreachableByte := by
  intro s rest op addr n hop hhost
  rw [step_of_host hhost]
  refine ⟨fun a h1 h2 hbelow => ?_, fun hall => ?_⟩
  · obtain ⟨houtside, hunbacked⟩ := hostMemFault_eq_some h1 h2 hbelow
    exact ⟨fun ho => hostAction_of_memFault hop (houtside ho),
      fun hi hb => hostAction_of_memFault hop (hunbacked hi hb)⟩
  · have hnone := hostMemFault_eq_none.2 hall
    rcases hop with ⟨bytes, rfl, rfl⟩ | ⟨rfl, rfl⟩
    · exact ⟨_, hostAction_memWr (s := { s with host := rest }) hnone⟩
    · exact ⟨_, hostAction_memRd (s := { s with host := rest }) hnone⟩

end Sys2Proof.Machine
end

section
/-! The access checks of a block producer (20_memory.md R67 to R69), in their order. -/

namespace Sys2Proof.Machine

/-- Past its earlier checks a block producer asks only whether its two ranges may be accessed (R201). -/
theorem firstFault_checksOf_stream {i : Instr} {r : Nat} {s : State}
    (hi : i ∈ [Instr.blockS r, .blockA r, .blockB r, .encrypt r]) (hr : r % 2 = 0) (hv : s.valid = true)
    (hs : stride? i s ≠ some 0) : firstFault (checksOf i s) =
      firstFault (accessChecks s.cfg [⟨inAddr s, streamLen i s⟩] [⟨outAddr s, streamLen i s⟩]) := by
  have hodd : oddRounds r = false := by simp [oddRounds, hr]
  simp only [List.mem_cons, List.not_mem_nil, or_false] at hi
  rcases hi with rfl | rfl | rfl | rfl
  · simp [checksOf, streamLen, hodd, hv]
  · have hA : (s.cfg.strideA.val == 0) = false := by simpa [stride?] using hs
    simp [checksOf, streamLen, hodd, hv, hA]
  · have hB : (s.cfg.strideB.val == 0) = false := by simpa [stride?] using hs
    simp [checksOf, streamLen, hodd, hv, hB]
  · simp [checksOf, streamLen, hodd, hv, byteCount]

/-- Settles O41: what is left of the checks is RANGE, OVERLAP and BUS in this order, on the ranges at A0 and A1. -/
theorem rangeThenOverlapThenBus : Obligations.RangeThenOverlapThenBus := by
  rintro i s r len hi hr hv hs rfl
  have hfault {f : FaultCode}
      (hf : firstFault (accessChecks s.cfg [⟨s.a0.toNat, streamLen i s⟩] [⟨s.a1.toNat, streamLen i s⟩]) = some f) :
      exec i s = .next (raise f s) := exec_of_fault ((firstFault_checksOf_stream hi hr hv hs).trans hf)
  refine ⟨fun hrange => hfault (accessChecks_range ?_), fun hin hout hclash => hfault (accessChecks_overlap ?_ ?_),
    fun hin hout hclash hbus => hfault (accessChecks_bus ?_ ?_ ?_)⟩
  · simpa using hrange
  · simpa using ⟨hin, hout⟩
  · simpa [clashes_same] using hclash
  · simpa using ⟨hin, hout⟩
  · simpa [clashes_iff_noClash] using hclash
  · obtain ⟨a, ha, hok⟩ := hbus
    refine (bus_iff s.cfg _).2 ⟨a, ?_, hok⟩
    simpa [InFootprint] using ha

end Sys2Proof.Machine
end

section
/-! The order of the byte positions of a stream (20_memory.md R70). -/

namespace Sys2Proof.Machine

theorem xorInOrder_cons (i o : Nat) (ks : List Byte) (k : Nat) (order : List Nat) (m : Memory) :
    xorInOrder i o ks (k :: order) m =
      xorInOrder i o ks order (m.write (o + k) (m.read (i + k) ^^^ ks.getD k 0)) := rfl

theorem xorInOrder_wf (i o : Nat) (ks : List Byte) (order : List Nat) {m : Memory} (hm : m.wf) :
    (xorInOrder i o ks order m).wf := by
  induction order generalizing m with
  | nil => exact hm
  | cons k order ih => exact ih (Memory.write_wf hm _ _)

/-- A byte that is no position's output byte keeps its value. -/
theorem read_xorInOrder_of_ne (i o : Nat) (ks : List Byte) {order : List Nat} (m : Memory) {a : Nat}
    (h : ∀ k ∈ order, o + k ≠ a) : (xorInOrder i o ks order m).read a = m.read a := by
  induction order generalizing m with
  | nil => rfl
  | cons k order ih =>
    rw [List.forall_mem_cons] at h
    rw [xorInOrder_cons, ih _ h.2, Memory.read_write_of_ne _ _ h.1]

/-- On admitted buffers one position's output byte is no other position's input byte (R68). -/
theorem NoClash.output_ne_input {i o len j k : Nat} (h : NoClash i o len) (hj : j < len) (hk : k < len) (hne : k ≠ j) :
    o + k ≠ i + j := by
  unfold NoClash at h
  omega

/-- On admitted buffers, whatever was done before it, a position reads its input byte as it stood at first. -/
theorem read_xorInOrder_of_mem {i o len : Nat} (ks : List Byte) (hc : NoClash i o len) {order : List Nat} {m : Memory}
    (hm : m.wf) (hnd : order.Nodup) (hlt : ∀ k ∈ order, k < len) {j : Nat} (hj : j ∈ order) :
    (xorInOrder i o ks order m).read (o + j) = m.read (i + j) ^^^ ks.getD j 0 := by
  induction order generalizing m with
  | nil => simp at hj
  | cons k order ih =>
    obtain ⟨hk, hnd⟩ := List.nodup_cons.1 hnd
    obtain ⟨hklt, hlt⟩ := List.forall_mem_cons.1 hlt
    rw [xorInOrder_cons]
    rcases List.mem_cons.1 hj with rfl | hj
    · have hlater : ∀ k ∈ order, o + k ≠ o + j := fun k hmem heq => hk (Nat.add_left_cancel heq ▸ hmem)
      rw [read_xorInOrder_of_ne i o ks _ hlater, Memory.read_write_self hm]
    · have hkj : k ≠ j := fun heq => hk (heq ▸ hj)
      rw [ih (Memory.write_wf hm _ _) hnd hlt hj,
        Memory.read_write_of_ne _ _ (hc.output_ne_input (hlt j hj) hklt hkj)]

/-- All positions of a stream, in any order: every output byte is its input byte XOR its keystream byte (R70). -/
theorem xorInOrder_xorInto (l : Layout) (S : StateWords) (r : Nat) {i o len : Nat} (hc : NoClash i o len)
    {order : List Nat} (hp : order.Perm (List.range len)) {m : Memory} (hm : m.wf) :
    XorInto m (xorInOrder i o (keystream l S r len) order m) i o len (keyByte l S r) := by
  have hmem : ∀ j, j ∈ order ↔ j < len := fun j => hp.mem_iff.trans List.mem_range
  refine ⟨fun j hj => ?_, fun a ha => read_xorInOrder_of_ne _ _ _ _ fun k hk => ?_⟩
  · have hks : (keystream l S r len).getD j 0 = keyByte l S r j := by
      rw [List.getD_eq_getElem?_getD, getElem?_keystream l S r hj, Option.getD_some]
    rw [← hks]
    exact read_xorInOrder_of_mem _ hc hm (hp.nodup_iff.2 List.nodup_range) (fun k => (hmem k).1) ((hmem j).2 hj)
  · have := (hmem k).1 hk
    omega

/-- Settles O31: both memories hold the same function of the input and the keystream, and are canonical. -/
theorem bytePositionsMayRunInAnyOrder : Obligations.BytePositionsMayRunInAnyOrder := by
  intro i r s t order hi hm h ht hp
  obtain ⟨hpass, rfl⟩ := completed_of_ok h ht
  obtain ⟨-, -, -, hclash⟩ := checks_producer hi hpass
  obtain ⟨n, he⟩ := effectOf_stream s hi
  have hxor := produce_xorInto r (streamLen i s) n hm
  rw [he, complete_mem]
  exact ⟨eq_of_xorInto (xorInOrder_wf _ _ _ _ hm) (produce_wf r _ n hm)
    (xorInOrder_xorInto s.layout s.S r hclash hp hm) hxor, hxor.1⟩

end Sys2Proof.Machine
end

section
/-! What a command reads of buffer memory (20_memory.md R66). -/

namespace Sys2Proof.Machine

/-- No check looks at memory. -/
theorem checksOf_with_mem (i : Instr) (s : State) (m : Memory) : checksOf i { s with mem := m } = checksOf i s := by
  cases i <;> rfl

theorem writes_with_mem (i : Instr) (s : State) (m : Memory) : writes i { s with mem := m } = writes i s := by
  cases i <;> rfl

/-- A block producer's effect is one and the same production, whatever memory holds. -/
theorem effectOf_stream_with_mem {i : Instr} {r : Nat} (s : State)
    (hi : i ∈ [Instr.blockS r, .blockA r, .blockB r, .encrypt r]) :
    ∃ n, ∀ m, effectOf i { s with mem := m } = produce r (streamLen i s) n { s with mem := m } := by
  simp only [List.mem_cons, List.not_mem_nil, or_false] at hi
  rcases hi with rfl | rfl | rfl | rfl
  · exact ⟨1, fun _ => rfl⟩
  · exact ⟨s.cfg.strideA, fun _ => rfl⟩
  · exact ⟨s.cfg.strideB, fun _ => rfl⟩
  · exact ⟨blocksFor (byteCount s), fun _ => rfl⟩

theorem reads_setupExt (k : Bool) (s : State) : reads (.setupExt k) s = [⟨keyAddr s, keyLen k⟩] := by
  cases k <;> rfl

theorem writes_setup {i : Instr} (s : State) (hi : i = .setupRfc ∨ ∃ k, i = .setupExt k) : writes i s = [] := by
  rcases hi with rfl | ⟨k, rfl⟩ <;> rfl

/-- Memories that agree on a footprint agree at every offset in each of its ranges. -/
theorem agree_on_span {ps : List Span} {m m' : Memory} (h : ∀ a, InFootprint ps a → m'.read a = m.read a) {p : Span}
    (hp : p ∈ ps) : ∀ j < p.len, m'.read (p.base + j) = m.read (p.base + j) :=
  fun j hj => h _ ⟨p, hp, by omega, by omega⟩

/-- An effect leaves every byte outside the write footprint. -/
theorem effectOf_mem_outside (i : Instr) (s : State) {a : Nat} (h : ¬ InFootprint (writes i s) a) :
    (effectOf i s).mem.read a = s.mem.read a := by
  rcases instr_kind i with rfl | ⟨k, rfl⟩ | ⟨r, hi⟩
  · rfl
  · rfl
  · obtain ⟨n, he⟩ := effectOf_stream s hi
    rw [(reads_stream s hi).2] at h
    rw [he]
    refine produce_mem_outside r _ n s ?_
    by_contra hin
    exact h ⟨_, List.mem_singleton_self _, by simp only; omega, by simp only; omega⟩

/-- Apart from memory, an effect depends on memory only through the read footprint. -/
theorem effectOf_congr {i : Instr} {s : State} {m : Memory} (h : ∀ a, InFootprint (reads i s) a → m.read a = s.mem.read a) :
    effectOf i { s with mem := m } = { effectOf i s with mem := (effectOf i { s with mem := m }).mem } := by
  rcases instr_kind i with rfl | ⟨k, rfl⟩ | ⟨r, hi⟩
  · have hwords : rfcWords { s with mem := m } = rfcWords s :=
      rfcWords_congr (agree_on_span h (p := ⟨keyAddr s, 32⟩) (.head _))
        (agree_on_span h (p := ⟨nonceAddr s, 12⟩) (.tail _ (.head _)))
    simp only [effectOf, hwords, setUp]
  · rw [reads_setupExt] at h
    have hwords : extWords k { s with mem := m } = extWords k s :=
      extWords_congr (agree_on_span h (List.mem_singleton_self _))
    simp only [effectOf, hwords, setUp]
  · obtain ⟨n, he⟩ := effectOf_stream_with_mem s hi
    rw [he m, show effectOf i s = produce r (streamLen i s) n s from he s.mem]
    rfl

/-- The bytes an effect leaves in the write footprint depend on memory only through the read footprint. -/
theorem effectOf_mem_congr {i : Instr} {s : State} {m : Memory} (hs : s.mem.wf) (hm : m.wf)
    (h : ∀ a, InFootprint (reads i s) a → m.read a = s.mem.read a) {a : Nat} (ha : InFootprint (writes i s) a) :
    (effectOf i { s with mem := m }).mem.read a = (effectOf i s).mem.read a := by
  rcases instr_kind i with hi | hi | ⟨r, hi⟩
  · rw [writes_setup s (.inl hi)] at ha
    simp [InFootprint] at ha
  · rw [writes_setup s (.inr hi)] at ha
    simp [InFootprint] at ha
  · obtain ⟨hreads, hwrites⟩ := reads_stream s hi
    rw [hreads] at h
    rw [hwrites, inFootprint_single] at ha
    obtain ⟨j, hj, rfl⟩ := ha
    obtain ⟨n, he⟩ := effectOf_stream_with_mem s hi
    rw [he m, show effectOf i s = produce r (streamLen i s) n s from he s.mem]
    exact produce_congr r _ n hs hm (agree_on_span h (List.mem_singleton_self _)) j hj

/-- Settles O44: both runs make the same checks, so both fault with one code or both complete with effects that agree. -/
theorem commandsReadOnlyTheirFootprint : Obligations.CommandsReadOnlyTheirFootprint := by
  intro i s m' t t' hs hm' hread h h'
  rcases hchecks : firstFault (checksOf i s) with _ | f
  · have hchecks' : firstFault (checksOf i { s with mem := m' }) = none := by rw [checksOf_with_mem, hchecks]
    obtain rfl := Host.Outcome.next.inj ((exec_of_pass hchecks).symm.trans h)
    obtain rfl := Host.Outcome.next.inj ((exec_of_pass hchecks').symm.trans h')
    refine ⟨?_, fun a _ ha => effectOf_mem_congr hs hm' hread ha,
      fun a ha => ⟨effectOf_mem_outside i _ (by rwa [writes_with_mem]), effectOf_mem_outside i s ha⟩⟩
    rw [complete_mem]
    exact congrArg complete (effectOf_congr hread)
  · have hchecks' : firstFault (checksOf i { s with mem := m' }) = some f := by rw [checksOf_with_mem, hchecks]
    obtain rfl := Host.Outcome.next.inj ((exec_of_fault hchecks).symm.trans h)
    obtain rfl := Host.Outcome.next.inj ((exec_of_fault hchecks').symm.trans h')
    exact ⟨rfl, fun a hok _ => by simp at hok, fun a _ => ⟨rfl, rfl⟩⟩

end Sys2Proof.Machine
end

section
/-! The command word: the rows of format R in one relation, what the decoder does at each operation code, and the round
trips (30_encoding.md R82 to R91). -/

namespace Sys2Proof.Machine

/-! ### The commands of format R -/

/-- The rows of format R (R84, R87, R91): mnemonic, operation code, and the command at each round count. -/
inductive FormatR : List Char → Byte → (Nat → Instr) → Prop
  | blockS : FormatR "BLOCK.S".toList 0x10 .blockS
  | blockA : FormatR "BLOCK.A".toList 0x11 .blockA
  | blockB : FormatR "BLOCK.B".toList 0x12 .blockB
  | encrypt : FormatR "ENCRYPT".toList 0x20 .encrypt

/-- A command is SETUP.RFC, SETUP.EXT or a row of format R at a round count. -/
theorem instr_format (i : Instr) :
    i = .setupRfc ∨ (∃ k, i = .setupExt k) ∨ ∃ name op mk r, FormatR name op mk ∧ i = mk r := by
  cases i with
  | setupRfc => exact .inl rfl
  | setupExt k => exact .inr (.inl ⟨k, rfl⟩)
  | blockS r => exact .inr (.inr ⟨_, _, _, r, .blockS, rfl⟩)
  | blockA r => exact .inr (.inr ⟨_, _, _, r, .blockA, rfl⟩)
  | blockB r => exact .inr (.inr ⟨_, _, _, r, .blockB, rfl⟩)
  | encrypt r => exact .inr (.inr ⟨_, _, _, r, .encrypt, rfl⟩)

section
variable {name : List Char} {op : Byte} {mk : Nat → Instr} (h : FormatR name op mk)
include h

theorem FormatR.encode_eq (r : Nat) : encode (mk r) = encodeR op r := by
  cases h <;> rfl

theorem FormatR.wellFormed_iff (r : Nat) : (mk r).wellFormed = true ↔ r ≤ 255 := by
  cases h <;> exact decide_eq_true_iff

theorem FormatR.rowMask_eq (r : Nat) : (mk r).rowMask = 0xFFFF00FF := by
  cases h <;> rfl

theorem FormatR.rowMatch_toNat (r : Nat) : (mk r).rowMatch.toNat = op.toNat := by
  cases h <;> rfl

/-- The decoder at an operation code of format R (R88). -/
theorem FormatR.decode_eq {v : Word} (hv : opField v = op) :
    decode v = accept (reservedR v) (mk (roundsField v)) := by
  cases h <;> simp [decode, hv]

end

/-! ### The decoder at the other operation codes (R88) -/

theorem decode_of_opField_setupRfc {v : Word} (hv : opField v = 0x01) : decode v = accept (reservedS v) .setupRfc := by
  simp [decode, hv]

theorem decode_of_opField_setupExt {v : Word} (hv : opField v = 0x02) :
    decode v = accept (reservedE v) (.setupExt (k128Field v)) := by
  simp [decode, hv]

theorem decode_of_no_opcode {v : Word} (hv : v.toNat % 256 ∉ [0x01, 0x02, 0x10, 0x11, 0x12, 0x20]) :
    decode v = .error .illegalOpcode := by
  have hne : ∀ op : Byte, op.toNat ∈ [0x01, 0x02, 0x10, 0x11, 0x12, 0x20] → opField v ≠ op :=
    fun op hop heq => hv ((opField_eq_iff v op).1 heq ▸ hop)
  rw [decode, if_neg (hne _ (by decide)), if_neg (hne _ (by decide)), if_neg (hne _ (by decide)),
    if_neg (hne _ (by decide)), if_neg (hne _ (by decide)), if_neg (hne _ (by decide))]

/-! ### The decoder on the word's number -/

theorem decode_setupRfc {v : Word} (hv : v.toNat % 256 = 0x01) :
    decode v = if v.toNat / 2 ^ 8 = 0 then .ok .setupRfc else .error .reservedBits := by
  rw [decode_of_opField_setupRfc ((opField_eq_iff v _).2 hv), accept_eq_ite _ (reservedS_eq_false v)]

theorem decode_setupExt {v : Word} (hv : v.toNat % 256 = 0x02) :
    decode v = if v.toNat / 2 ^ 17 = 0 ∧ v.toNat / 2 ^ 8 % 256 = 0
      then .ok (.setupExt (v.toNat / 2 ^ 16 % 2 == 1)) else .error .reservedBits := by
  rw [decode_of_opField_setupExt ((opField_eq_iff v _).2 hv), accept_eq_ite _ (reservedE_eq_false v), k128Field_eq]

theorem FormatR.decode_eq_ite {name : List Char} {op : Byte} {mk : Nat → Instr} (h : FormatR name op mk) {v : Word}
    (hv : v.toNat % 256 = op.toNat) :
    decode v = if v.toNat / 2 ^ 16 = 0 then .ok (mk (v.toNat / 2 ^ 8 % 256)) else .error .reservedBits := by
  rw [h.decode_eq ((opField_eq_iff v op).2 hv), accept_eq_ite _ (reservedR_eq_false v), roundsField_eq]

/-! ### The round trips -/

/-- Decoding the word of a row of format R (R84). -/
theorem FormatR.decode_encodeR {name : List Char} {op : Byte} {mk : Nat → Instr} (h : FormatR name op mk) {r : Nat}
    (hr : r ≤ 255) : decode (encodeR op r) = .ok (mk r) := by
  have hop := op.isLt
  have hword := encodeR_toNat op hr
  rw [h.decode_eq_ite (by omega), if_pos (by omega)]
  congr 2
  omega

/-- Settles O1: the words of format S and E are computed, those of format R read back field by field. -/
theorem decodeOfEncodeIsTheCommand : Obligations.DecodeOfEncodeIsTheCommand := by
  intro i hi
  rcases instr_format i with rfl | ⟨k, rfl⟩ | ⟨name, op, mk, r, h, rfl⟩
  · decide
  · cases k <;> decide
  · rw [h.encode_eq]
    exact h.decode_encodeR ((h.wellFormed_iff r).1 hi)

/-- A word that decodes, by its format. -/
theorem decode_eq_ok_format {v : Word} {i : Instr} (hv : decode v = .ok i) :
    (opField v = 0x01 ∧ reservedS v = false ∧ i = .setupRfc) ∨
    (opField v = 0x02 ∧ reservedE v = false ∧ i = .setupExt (k128Field v)) ∨
    ∃ name op mk, FormatR name op mk ∧ opField v = op ∧ reservedR v = false ∧ i = mk (roundsField v) := by
  rcases decode_eq_ok hv with h | h | h | h | h | h
  · exact .inl h
  · exact .inr (.inl h)
  · exact .inr (.inr ⟨_, _, _, .blockS, h⟩)
  · exact .inr (.inr ⟨_, _, _, .blockA, h⟩)
  · exact .inr (.inr ⟨_, _, _, .blockB, h⟩)
  · exact .inr (.inr ⟨_, _, _, .encrypt, h⟩)

/-- A word with no reserved bit of format S set is the encoding of its field (R82). -/
theorem encodeS_fields {v : Word} (hr : reservedS v = false) : encodeS (opField v) = v := by
  rw [reservedS_eq_false] at hr
  refine BitVec.eq_of_toNat_eq ?_
  rw [encodeS_toNat, opField_toNat]
  omega

/-- A word with no reserved bit of format E set is the encoding of its fields (R83). -/
theorem encodeE_fields {v : Word} (hr : reservedE v = false) : encodeE (opField v) (k128Field v) = v := by
  rw [reservedE_eq_false] at hr
  refine BitVec.eq_of_toNat_eq ?_
  have hbit : (v.toNat / 2 ^ 16 % 2 == 1).toNat = v.toNat / 2 ^ 16 % 2 := by
    rcases Nat.mod_two_eq_zero_or_one (v.toNat / 2 ^ 16) with hk | hk <;> rw [hk] <;> rfl
  rw [encodeE_toNat, opField_toNat, k128Field_eq, hbit]
  omega

theorem roundsField_le (v : Word) : roundsField v ≤ 255 := by
  rw [roundsField_eq]
  omega

/-- A word with no reserved bit of format R set is the encoding of its fields (R84). -/
theorem encodeR_fields {v : Word} (hr : reservedR v = false) : encodeR (opField v) (roundsField v) = v := by
  rw [reservedR_eq_false] at hr
  refine BitVec.eq_of_toNat_eq ?_
  rw [encodeR_toNat _ (roundsField_le v), opField_toNat, roundsField_eq]
  omega

/-- Settles O2: in each format the word is the encoding of its fields, since its reserved bits are 0. -/
theorem encodeOfDecodeIsTheWord : Obligations.EncodeOfDecodeIsTheWord := by
  intro v i hv
  rcases decode_eq_ok_format hv with ⟨hop, hr, rfl⟩ | ⟨hop, hr, rfl⟩ | ⟨name, op, mk, h, rfl, hr, rfl⟩
  · exact ⟨rfl, by rw [encode, ← hop, encodeS_fields hr]⟩
  · exact ⟨rfl, by rw [encode, ← hop, encodeE_fields hr]⟩
  · exact ⟨(h.wellFormed_iff _).2 (roundsField_le v), by rw [h.encode_eq, encodeR_fields hr]⟩

/-! ### The whole decoder, the opcode table, and words written out -/

/-- Settles O3: the decoder's clause at each operation code, and the fault of a rejected word. -/
theorem decodeIsTotalOnCommandWords : Obligations.DecodeIsTotalOnCommandWords := fun _ =>
  ⟨decode_of_no_opcode, decode_setupRfc, decode_setupExt, FormatR.blockS.decode_eq_ite, FormatR.blockA.decode_eq_ite,
    FormatR.blockB.decode_eq_ite, FormatR.encrypt.decode_eq_ite, fun s h => issue_of_reject h s,
    fun s h => issue_of_reject h s⟩

/-- A well-formed command's word has the fixed bits of its row (R82 to R84). -/
theorem encode_and_rowMask {i : Instr} (hi : i.wellFormed = true) : encode i &&& i.rowMask = i.rowMatch := by
  cases i with
  | setupRfc => exact Laws.EncodingFits.setupRfc hi
  | setupExt k => exact Laws.EncodingFits.setupExt k hi
  | blockS r => exact Laws.EncodingFits.blockS r hi
  | blockA r => exact Laws.EncodingFits.blockA r hi
  | blockB r => exact Laws.EncodingFits.blockB r hi
  | encrypt r => exact Laws.EncodingFits.encrypt r hi

/-- A word with the fixed bits of a row decodes to a command of that row: its operation code is the row's, and its reserved
bits are 0. -/
theorem decode_of_rowMatch {v : Word} {j : Instr} (hv : v &&& j.rowMask = j.rowMatch) :
    ∃ i, decode v = .ok i ∧ i.rowMatch = j.rowMatch := by
  rcases instr_format j with rfl | ⟨k, rfl⟩ | ⟨name, op, mk, r, h, rfl⟩
  · rw [Instr.rowMask, and_mask_setupRfc] at hv
    subst hv
    exact ⟨.setupRfc, by decide, rfl⟩
  · have hnat : 2 ^ 17 * (v.toNat / 2 ^ 17) + v.toNat % 2 ^ 16 = 2 := by
      rw [← and_mask_extRow]
      exact congrArg BitVec.toNat hv
    exact ⟨.setupExt (k128Field v), by rw [decode_setupExt (by omega), if_pos (by omega), k128Field_eq], rfl⟩
  · have hop := op.isLt
    have hnat : 2 ^ 16 * (v.toNat / 2 ^ 16) + v.toNat % 2 ^ 8 = op.toNat := by
      rw [← and_mask_roundsRow, ← h.rowMatch_toNat r, ← h.rowMask_eq r, hv]
    refine ⟨mk _, by rw [h.decode_eq_ite (by omega), if_pos (by omega)], BitVec.eq_of_toNat_eq ?_⟩
    rw [h.rowMatch_toNat, h.rowMatch_toNat]

/-- Settles O4: a word that decodes is the word of its command (O2), which has its row's fixed bits. -/
theorem decodeAgreesWithTheOpcodeTable : Obligations.DecodeAgreesWithTheOpcodeTable := by
  refine ⟨fun v i hv => ?_, fun v j => decode_of_rowMatch⟩
  obtain ⟨hwf, rfl⟩ := encodeOfDecodeIsTheWord v i hv
  exact encode_and_rowMask hwf

/-- Settles O5: the decoder evaluated on each word. -/
theorem spelledOutWordsDecode : Obligations.SpelledOutWordsDecode := by
  unfold Obligations.SpelledOutWordsDecode
  decide

end Sys2Proof.Machine
end

section
/-! The assembler: the word of a command and of a command line, and which lines have a word (30_encoding.md R91). -/

namespace Sys2Proof.Machine

/-! ### Commands -/

theorem assemble_of_wellFormed {i : Instr} (h : i.wellFormed = true) : assemble i = some (encode i) := if_pos h

theorem assemble_eq_some {i : Instr} {v : Word} (h : assemble i = some v) : i.wellFormed = true ∧ encode i = v := by
  simpa [assemble] using h

section
variable {name : List Char} {op : Byte} {mk : Nat → Instr} (h : FormatR name op mk)
include h

/-- The word of a row of format R: its base plus `r * 0x100` (R91). -/
theorem FormatR.assemble_eq {r : Nat} (hr : r ≤ 255) : assemble (mk r) = some (BitVec.ofNat 32 (op.toNat + r * 0x100)) := by
  have hop := op.isLt
  rw [assemble_of_wellFormed ((h.wellFormed_iff r).2 hr), h.encode_eq]
  refine congrArg some (BitVec.eq_of_toNat_eq ?_)
  rw [encodeR_toNat op hr, BitVec.toNat_ofNat]
  omega

/-- A count above 255 is rejected (R91). -/
theorem FormatR.assemble_eq_none {r : Nat} (hr : 255 < r) : assemble (mk r) = none :=
  if_neg fun hwf => absurd ((h.wellFormed_iff r).1 hwf) (by omega)

/-! ### Lines -/

theorem FormatR.space_notMem : ' ' ∉ name := by
  cases h <;> decide

theorem FormatR.lookup_eq (r : Nat) : (roundCommands r).lookup name = some (mk r) := by
  cases h <;> rfl

/-- A line of format R assembles as the command at the count that its operand spells. -/
theorem FormatR.assembleLine_eq {count : List Char} {r : Nat} (hr : numeral count = some r) :
    assembleLine (name ++ ' ' :: count) = assemble (mk r) := by
  simp only [assembleLine, parseCommand_rounds h.space_notMem hr, h.lookup_eq]

end

/-! ### Which lines assemble (log 13) -/

theorem mem_of_lookup {α β : Type} [BEq α] [LawfulBEq α] {l : List (α × β)} {k : α} {b : β} (h : l.lookup k = some b) :
    (k, b) ∈ l := by
  obtain ⟨l₁, l₂, rfl, -⟩ := List.lookup_eq_some_iff.1 h
  exact List.mem_append_right _ List.mem_cons_self

/-- The mnemonics that take a count are those of format R. -/
theorem formatR_of_lookup {name : List Char} {r : Nat} {i : Instr} (h : (roundCommands r).lookup name = some i) :
    ∃ op mk, FormatR name op mk ∧ i = mk r := by
  have hmem := mem_of_lookup h
  simp only [roundCommands, List.mem_cons, List.not_mem_nil, or_false, Prod.mk.injEq] at hmem
  rcases hmem with ⟨rfl, rfl⟩ | ⟨rfl, rfl⟩ | ⟨rfl, rfl⟩ | ⟨rfl, rfl⟩
  · exact ⟨_, _, .blockS, rfl⟩
  · exact ⟨_, _, .blockA, rfl⟩
  · exact ⟨_, _, .blockB, rfl⟩
  · exact ⟨_, _, .encrypt, rfl⟩

/-- A line that stands for a command is a SETUP mnemonic, or a mnemonic of format R, a space and a count. -/
theorem parseCommand_cases {line : List Char} {i : Instr} (h : parseCommand line = some i) :
    (line, i) ∈ plainCommands ∨
    ∃ name op mk count r, FormatR name op mk ∧ numeral count = some r ∧ line = name ++ ' ' :: count := by
  unfold parseCommand at h
  split at h
  · next name hs =>
    obtain rfl := (splitLine_join line).1 name hs
    exact .inl (mem_of_lookup h)
  · next name count hs =>
    split at h
    · next r hr =>
      obtain ⟨op, mk, hf, -⟩ := formatR_of_lookup h
      exact .inr ⟨name, op, mk, count, r, hf, hr, (splitLine_join line).2 name count hs⟩
    · cases h

theorem parseCommand_of_assembleLine {line : List Char} {v : Word} (h : assembleLine line = some v) :
    ∃ i, parseCommand line = some i := by
  unfold assembleLine at h
  split at h
  · next i hi => exact ⟨i, hi⟩
  · cases h

theorem line_mem_of_plainCommands {line : List Char} {i : Instr} (h : (line, i) ∈ plainCommands) :
    line ∈ ["SETUP.RFC".toList, "SETUP.EXT.K256".toList, "SETUP.EXT.K128".toList] :=
  List.mem_map_of_mem (f := Prod.fst) h

theorem FormatR.line_mem {name : List Char} {op : Byte} {mk : Nat → Instr} (h : FormatR name op mk)
    (count : List Char) : name ++ ' ' :: count ∈
      ["BLOCK.S ".toList ++ count, "BLOCK.A ".toList ++ count, "BLOCK.B ".toList ++ count, "ENCRYPT ".toList ++ count] := by
  cases h with
  | blockS => exact .head _
  | blockA => exact .tail _ (.head _)
  | blockB => exact .tail _ (.tail _ (.head _))
  | encrypt => exact .tail _ (.tail _ (.tail _ (.head _)))

/-- Both spellings of a count are read as the count (R91). -/
theorem numeral_of_mem_spellings {count : List Char} {r : Nat}
    (h : count ∈ [Nat.toDigits 10 r, '0' :: 'x' :: Nat.toDigits 16 r]) : numeral count = some r := by
  simp only [List.mem_cons, List.not_mem_nil, or_false] at h
  rcases h with rfl | rfl
  · exact numeral_decimal r
  · exact numeral_hex r

/-- Settles O6: the words of the rows of format R, their lines at either spelling of the count, and the cases of a line that
stands for a command. -/
theorem assemblerFollowsTheSyntaxTable : Obligations.AssemblerFollowsTheSyntaxTable := by
  refine ⟨rfl, rfl, rfl, fun r => ⟨fun hr => ?_, fun hr => ?_, rfl, rfl, rfl, fun count hcount => ?_, fun line v hv => ?_⟩⟩
  · exact ⟨FormatR.blockS.assemble_eq hr, FormatR.blockA.assemble_eq hr, FormatR.blockB.assemble_eq hr,
      FormatR.encrypt.assemble_eq hr⟩
  · exact ⟨FormatR.blockS.assemble_eq_none hr, FormatR.blockA.assemble_eq_none hr, FormatR.blockB.assemble_eq_none hr,
      FormatR.encrypt.assemble_eq_none hr⟩
  · have hnum := numeral_of_mem_spellings hcount
    have hS := FormatR.blockS.assembleLine_eq hnum
    have hA := FormatR.blockA.assembleLine_eq hnum
    have hB := FormatR.blockB.assembleLine_eq hnum
    have hE := FormatR.encrypt.assembleLine_eq hnum
    refine ⟨fun hr => ?_, fun hr => ?_⟩
    · exact ⟨hS.trans (FormatR.blockS.assemble_eq hr), hA.trans (FormatR.blockA.assemble_eq hr),
        hB.trans (FormatR.blockB.assemble_eq hr), hE.trans (FormatR.encrypt.assemble_eq hr)⟩
    · exact ⟨hS.trans (FormatR.blockS.assemble_eq_none hr), hA.trans (FormatR.blockA.assemble_eq_none hr),
        hB.trans (FormatR.blockB.assemble_eq_none hr), hE.trans (FormatR.encrypt.assemble_eq_none hr)⟩
  · obtain ⟨i, hi⟩ := parseCommand_of_assembleLine hv
    rcases parseCommand_cases hi with hplain | ⟨name, op, mk, count, r, hf, hr, rfl⟩
    · exact .inl (line_mem_of_plainCommands hplain)
    · exact .inr ⟨count, numeral_cases hr, hf.line_mem count⟩

end Sys2Proof.Machine
end

section
/-! The field values that fault, and ROUNDS = 0 (30_encoding.md R90). -/

namespace Sys2Proof.Machine

/-- BAD_ROUNDS is the first check of a block producer (R90, R201). -/
theorem firstFault_checksOf_of_odd {i : Instr} {r : Nat} {s : State}
    (hi : i ∈ [Instr.blockS r, .blockA r, .blockB r, .encrypt r]) (hr : r % 2 = 1) :
    firstFault (checksOf i s) = some .badRounds := by
  have hodd : oddRounds r = true := by simp [oddRounds, hr]
  simp only [List.mem_cons, List.not_mem_nil, or_false] at hi
  rcases hi with rfl | rfl | rfl | rfl <;> simp only [checksOf, hodd, firstFault_true]

/-- BAD_KEYBITS is the first check of SETUP.EXT (R90, R201). -/
theorem firstFault_checksOf_of_unsupported_key {s : State} (hk : s.cfg.key128 = none) :
    firstFault (checksOf (.setupExt true) s) = some .badKeybits := by
  simp [checksOf, hk]

/-- With an even count, a State, an available backend and admitted buffers a block producer completes (R140, R161). -/
theorem exec_producer_completes {i : Instr} {r : Nat} {s : State}
    (hi : i ∈ [Instr.blockS r, .blockA r, .blockB r, .encrypt r]) (hr : r % 2 = 0) (hv : s.valid = true)
    (hs : stride? i s ≠ some 0) (hb : BuffersOk s (streamLen i s)) : ∃ t, exec i s = .next t ∧ t.err = .ok := by
  have hpass : firstFault (checksOf i s) = none :=
    (firstFault_checksOf_stream hi hr hv hs).trans ((accessChecks_stream s _).2 hb)
  exact ⟨_, exec_of_pass hpass, complete_err _⟩

/-- Settles O39: the first check of each command asks its field, and at 0 the count passes and is no double-round. -/
theorem fieldValueFaults : Obligations.FieldValueFaults := by
  refine fun s r => ⟨fun hr i hi => exec_of_fault (firstFault_checksOf_of_odd hi hr),
    fun hk => exec_of_fault (firstFault_checksOf_of_unsupported_key hk), ?_, rfl⟩
  rintro hv len hb i hi hs rfl
  exact exec_producer_completes hi rfl hv hs hb

end Sys2Proof.Machine
end

section
/-! Host lines and pseudo-instructions: what they stand for and what they do (30_encoding.md R92, R93). -/

namespace Sys2Proof.Machine

/-! ### Argument registers -/

/-- The state with `An` set to `v`: what WR64 does (R93). -/
def setArg (s : State) (v : DWord) : ArgReg → State
  | .a0 => { s with a0 := v }
  | .a1 => { s with a1 := v }
  | .a2 => { s with a2 := v }

theorem loHalf_eq_ofNat (v : DWord) : loHalf v = BitVec.ofNat 32 (v.toNat % 2 ^ 32) := by
  refine BitVec.eq_of_toNat_eq ?_
  simp [loHalf]

theorem hiHalf_eq_ofNat (v : DWord) : hiHalf v = BitVec.ofNat 32 (v.toNat / 2 ^ 32) := by
  refine BitVec.eq_of_toNat_eq ?_
  simp [hiHalf, Nat.shiftRight_eq_div_pow]

theorem regWrite_hi_lo (a : ArgReg) (v : DWord) (s : State) :
    regWrite (hiHalf v) (regWrite (loHalf v) s a.lo) a.hi = setArg s v a := by
  cases a <;> simp only [ArgReg.lo, ArgReg.hi, regWrite, setHi_setLo, setArg]

/-! ### Two register writes -/

theorem regWrite_with_host (v : Word) (s : State) (reg : Reg) (rest : List HostOp) :
    regWrite v { s with host := rest } reg = { regWrite v s reg with host := rest } := by
  cases reg <;> rfl

/-- Two register writes of the host are two steps (R36). -/
theorem run_two_regWrites {p q : Reg} (hp : p ≠ .cmd) (hq : q ≠ .cmd) {x y : Word} {s : State} {rest : List HostOp}
    (h : s.host = .wr p.offset x :: .wr q.offset y :: rest) (k : Nat) :
    Host.Core.run core (k + 2) s =
      Host.Core.run core k (regWrite y (regWrite x { s with host := rest } p) q) := by
  rw [run_of_step (step_of_regWrite hp h), regWrite_with_host, run_of_step (step_of_regWrite hq rfl),
    regWrite_with_host x s p rest]

/-- What a register reads after a write to it depends only on what it read before. -/
theorem regRead_regWrite_congr (v : Word) {s t : State} {reg : Reg} (h : regRead s reg = regRead t reg) :
    regRead (regWrite v s reg) reg = regRead (regWrite v t reg) reg := by
  by_cases hreg : reg ∈ [Reg.a0Lo, .a0Hi, .a1Lo, .a1Hi, .a2Lo, .a2Hi]
  · rw [regRead_regWrite_self v s hreg, regRead_regWrite_self v t hreg]
  · rw [regWrite_of_not_mem v s hreg, regWrite_of_not_mem v t hreg, h]

/-- An argument register is what its two halves read as (R28). -/
theorem eq_of_halves {v w : DWord} (hlo : loHalf v = loHalf w) (hhi : hiHalf v = hiHalf w) : v = w := by
  rw [← halves_append v, ← halves_append w, hlo, hhi]

/-- Two writes to different registers do not disturb each other: every register reads the same after either order. -/
theorem regRead_regWrite_comm (x y : Word) (s : State) {p q : Reg} (h : p ≠ q) (reg : Reg) :
    regRead (regWrite y (regWrite x s p) q) reg = regRead (regWrite x (regWrite y s q) p) reg := by
  by_cases hq : reg = q
  · subst hq
    rw [regRead_regWrite_of_ne x _ h.symm]
    exact regRead_regWrite_congr y (regRead_regWrite_of_ne x s h.symm)
  · rw [regRead_regWrite_of_ne y _ hq]
    by_cases hp : reg = p
    · subst hp
      exact regRead_regWrite_congr x (regRead_regWrite_of_ne y s h).symm
    · rw [regRead_regWrite_of_ne x _ hp, regRead_regWrite_of_ne x _ hp, regRead_regWrite_of_ne y _ hq]

/-- Register writes commute: they touch only the argument registers, which are what their halves read as (R36). -/
theorem regWrite_comm (x y : Word) (s : State) {p q : Reg} (h : p ≠ q) :
    regWrite y (regWrite x s p) q = regWrite x (regWrite y s q) p := by
  have hread := regRead_regWrite_comm x y s h
  have h0 := eq_of_halves (hread .a0Lo) (hread .a0Hi)
  have h1 := eq_of_halves (hread .a1Lo) (hread .a1Hi)
  have h2 := eq_of_halves (hread .a2Lo) (hread .a2Hi)
  rw [regWrite_frame y (regWrite x s p) q, regWrite_frame x (regWrite y s q) p, h0, h1, h2,
    regWrite_frame x s p, regWrite_frame y s q]

/-! ### WR64 -/

/-- The writes of WR64 are two steps, which set the register (R93). -/
theorem run_writeArg {a : ArgReg} {v : DWord} {s : State} {rest : List HostOp} (h : s.host = writeArg a v ++ rest)
    (k : Nat) : Host.Core.run core (k + 2) s = Host.Core.run core k (setArg { s with host := rest } v a) := by
  have hhost : s.host = .wr a.lo.offset (loHalf v) :: .wr a.hi.offset (hiHalf v) :: rest := h
  have hlo : a.lo ≠ .cmd := by cases a <;> decide
  have hhi : a.hi ≠ .cmd := by cases a <;> decide
  rw [run_two_regWrites hlo hhi hhost, regWrite_hi_lo]

/-- Settles O53: WR64's two writes set the two halves, and the order of two register writes does not matter. -/
theorem pseudoWriteSetsTheArgumentRegister : Obligations.PseudoWriteSetsTheArgumentRegister := by
  intro v s rest
  have hwords (a : ArgReg) : writeArg a v = [.wr a.lo.offset (BitVec.ofNat 32 (v.toNat % 2 ^ 32)),
      .wr a.hi.offset (BitVec.ofNat 32 (v.toNat / 2 ^ 32))] := by
    rw [writeArg, loHalf_eq_ofNat, hiHalf_eq_ofNat]
  refine ⟨fun h => run_writeArg h 0, fun h => run_writeArg h 0, fun h => run_writeArg h 0, hwords .a0, hwords .a1,
    hwords .a2, fun p q x y hp hq hpq => ?_⟩
  rw [run_two_regWrites hp hq rfl 0, run_two_regWrites hq hp rfl 0, regWrite_comm _ _ _ hpq]

/-! ### What the lines stand for -/

theorem commandAfter_of_assemble {args : List HostOp} {i : Instr} {v : Word} (h : assemble i = some v) :
    commandAfter args i = some (args ++ [.wr 0x000 v]) := by
  simp only [commandAfter, h, Reg.offset]

theorem commandAfter_of_reject {args : List HostOp} {i : Instr} (h : assemble i = none) :
    commandAfter args i = none := by
  simp only [commandAfter, h]

theorem commandAfter_eq_some {args ops : List HostOp} {i : Instr} (h : commandAfter args i = some ops) :
    ∃ v, assemble i = some v ∧ ops = args ++ [.wr 0x000 v] := by
  rcases hv : assemble i with _ | v
  · rw [commandAfter_of_reject hv] at h
    cases h
  · rw [commandAfter_of_assemble hv] at h
    exact ⟨v, rfl, (Option.some.inj h).symm⟩

/-- Settles O58: a command line is its argument writes and the CMD write of its word, where it has one. -/
theorem hostLinesExpandAsTabled : Obligations.HostLinesExpandAsTabled := by
  have hrfc : assemble .setupRfc = some 0x00000001 := rfl
  have hext : assemble (.setupExt false) = some 0x00000002 := rfl
  have hext128 : assemble (.setupExt true) = some 0x00010002 := rfl
  refine ⟨fun _ _ => ⟨rfl, rfl⟩, fun _ _ => rfl, fun i hi => commandAfter_of_assemble (assemble_of_wellFormed hi),
    fun _ _ => rfl, fun _ _ _ => commandAfter_of_assemble hrfc,
    fun _ _ => ⟨commandAfter_of_assemble hext, commandAfter_of_assemble hext128⟩, fun i o n r hr => ?_, fun _ _ _ _ => rfl,
    fun _ _ _ => ⟨rfl, rfl, rfl, rfl, rfl, rfl⟩, fun i o n r hr => ?_⟩
  · exact ⟨commandAfter_of_assemble (FormatR.blockS.assemble_eq hr), commandAfter_of_assemble (FormatR.blockA.assemble_eq hr),
      commandAfter_of_assemble (FormatR.blockB.assemble_eq hr), commandAfter_of_assemble (FormatR.encrypt.assemble_eq hr)⟩
  · exact ⟨commandAfter_of_reject (FormatR.blockS.assemble_eq_none hr),
      commandAfter_of_reject (FormatR.blockA.assemble_eq_none hr),
      commandAfter_of_reject (FormatR.blockB.assemble_eq_none hr),
      commandAfter_of_reject (FormatR.encrypt.assemble_eq_none hr)⟩

/-! ### What the pseudo-instructions do -/

/-- The actions of a list of argument writes. -/
def writeArgs : List (ArgReg × DWord) → List HostOp
  | [] => []
  | (a, v) :: args => writeArg a v ++ writeArgs args

/-- The state with the argument registers of a list set in turn. -/
def setArgs (s : State) : List (ArgReg × DWord) → State
  | [] => s
  | (a, v) :: args => setArgs (setArg s v a) args

theorem setArg_with_host (s : State) (v : DWord) (a : ArgReg) (rest : List HostOp) :
    setArg { s with host := rest } v a = { setArg s v a with host := rest } := by
  cases a <;> rfl

theorem setArgs_with_host (args : List (ArgReg × DWord)) (s : State) (rest : List HostOp) :
    setArgs { s with host := rest } args = { setArgs s args with host := rest } := by
  induction args generalizing s with
  | nil => rfl
  | cons p args ih => rw [setArgs, setArg_with_host, ih, setArgs]

/-- Argument writes set the registers in turn, two steps for each. -/
theorem run_writeArgs (args : List (ArgReg × DWord)) (k : Nat) {s : State} {rest : List HostOp}
    (h : s.host = writeArgs args ++ rest) :
    Host.Core.run core ((writeArgs args).length + k) s =
      Host.Core.run core k (setArgs { s with host := rest } args) := by
  induction args generalizing s with
  | nil =>
    obtain rfl : s.host = rest := h
    rw [writeArgs, List.length_nil, Nat.zero_add, setArgs]
  | cons p args ih =>
    obtain ⟨a, v⟩ := p
    have hhost : s.host = writeArg a v ++ (writeArgs args ++ rest) := by
      rw [h, writeArgs, List.append_assoc]
    have hlen : (writeArgs ((a, v) :: args)).length + k = (writeArgs args).length + k + 2 := by
      rw [writeArgs, List.length_append, show (writeArg a v).length = 2 from rfl]
      omega
    rw [hlen, run_writeArg hhost, setArg_with_host, ih rfl, setArgs, setArg_with_host s v a rest]

/-- A command after its argument writes: running all of the actions is the command, with its operands loaded (R29, R93). -/
theorem run_commandAfter {args : List (ArgReg × DWord)} {i : Instr} {ops rest : List HostOp} {s : State}
    (hops : commandAfter (writeArgs args) i = some ops) (hhost : s.host = ops ++ rest) :
    Host.Core.run core ops.length s = exec i (setArgs { s with host := rest } args) := by
  obtain ⟨v, hv, rfl⟩ := commandAfter_eq_some hops
  obtain ⟨hwf, rfl⟩ := assemble_eq_some hv
  rw [List.append_assoc] at hhost
  rw [List.length_append, List.length_singleton, run_writeArgs args 1 hhost, run_one, setArgs_with_host,
    stepRunsTheDecodedCommand _ rest _ i rfl (decodeOfEncodeIsTheCommand i hwf),
    setArgs_with_host args s rest]

/-- Settles O59: each pseudo-instruction is a command after the writes of its arguments. -/
theorem pseudoInstructionsRunTheirCommand : Obligations.PseudoInstructionsRunTheirCommand := by
  intro s line ops rest hops hhost
  refine ⟨?_, ?_, ?_, ?_, ?_, ?_, ?_, ?_⟩
  · rintro k n c rfl
    exact run_commandAfter (args := [(.a0, k), (.a1, n), (.a2, c)]) hops hhost
  · rintro k nv rfl
    exact run_commandAfter (args := [(.a0, k), (.a1, nv)]) hops hhost
  · rintro k nv rfl
    exact run_commandAfter (args := [(.a0, k), (.a1, nv)]) hops hhost
  · rintro i o r rfl
    exact run_commandAfter (args := [(.a0, i), (.a1, o)]) hops hhost
  · rintro i o r rfl
    exact run_commandAfter (args := [(.a0, i), (.a1, o)]) hops hhost
  · rintro i o r rfl
    exact run_commandAfter (args := [(.a0, i), (.a1, o)]) hops hhost
  · rintro i o n r (rfl | rfl) <;> exact run_commandAfter (args := [(.a0, i), (.a1, o), (.a2, n)]) hops hhost
  · rintro i o n rfl
    exact run_commandAfter (args := [(.a0, i), (.a1, o), (.a2, n)]) hops hhost

end Sys2Proof.Machine
end

section
/-! The round core: the quarter-round, the rounds, the block, the counter and the keystream (40_round_core.md). -/

namespace Sys2Proof.Machine

/-! ### The quarter-round and the rounds -/

theorem qr_zero : qr 0#32 0#32 0#32 0#32 = (0#32, 0#32, 0#32, 0#32) := by decide

/-- Settles O10: `rotl` is the rotation, and the corner cases are evaluated. -/
theorem quarterRoundFollowsItsFourLines : Obligations.QuarterRoundFollowsItsFourLines := by
  refine ⟨?_, qr_zero, by decide, by decide⟩
  rintro a b c d _ _ _ _ _ _ _ _ rfl rfl rfl rfl rfl rfl rfl rfl
  simp only [qr, rotl_eq _ _ (show 16 < 32 by decide), rotl_eq _ _ (show 12 < 32 by decide),
    rotl_eq _ _ (show 8 < 32 by decide), rotl_eq _ _ (show 7 < 32 by decide)]

/-- Settles O11: the four words are set at distinct indices. -/
theorem quarterRoundOnTheStateChangesFourWords : Obligations.QuarterRoundOnTheStateChangesFourWords := by
  intro x i j k l hnodup
  obtain ⟨hi, hj, hk, hl⟩ := getElem_qrAt (x := x) hnodup
  exact ⟨by rw [hi, hj, hk, hl], fun n hn => getElem_qrAt_of_not_mem hn⟩

/-- The words of a grouping. -/
def groupWords (g : Fin 16 × Fin 16 × Fin 16 × Fin 16) : List (Fin 16) := [g.1, g.2.1, g.2.2.1, g.2.2.2]

theorem columnRound_eq_qrOn (x : StateWords) : columnRound x = qrOn columnGroups x := rfl

theorem diagonalRound_eq_qrOn (x : StateWords) : diagonalRound x = qrOn diagonalGroups x := rfl

/-- Disjoint groupings may be taken in any order: quarter-rounds on two of them commute. -/
theorem qrOn_perm {gs gs' : List (Fin 16 × Fin 16 × Fin 16 × Fin 16)}
    (hdisj : ∀ g ∈ gs, ∀ h ∈ gs, g ≠ h → ∀ n ∈ groupWords g, n ∉ groupWords h) (hp : gs'.Perm gs) (x : StateWords) :
    qrOn gs x = qrOn gs' x := by
  refine hp.symm.foldl_eq' (fun g hg h hh y => ?_) x
  by_cases heq : g = h
  · rw [heq]
  · exact qrAt_comm y (hdisj g hg h hh heq)

/-- Settles O12: the groupings of a round are disjoint. -/
theorem roundsDoNotDependOnTheGroupingOrder : Obligations.RoundsDoNotDependOnTheGroupingOrder := by
  refine fun x => ⟨fun gs hgs => ?_, fun gs hgs => ?_⟩
  · rw [columnRound_eq_qrOn, qrOn_perm (by decide) hgs]
  · rw [diagonalRound_eq_qrOn, qrOn_perm (by decide) hgs]

/-! ### The block -/

/-- A quarter-round of zero words is zero (R102), so the all-zero State stays. -/
theorem qrAt_replicate_zero (i j k l : Fin 16) : qrAt (Vector.replicate 16 0) i j k l = Vector.replicate 16 0 := by
  simp [qrAt, qr_zero]

theorem permute_replicate_zero (r : Nat) : permute (Vector.replicate 16 0) r = Vector.replicate 16 0 :=
  Function.iterate_fixed (by simp only [doubleRound, columnRound, diagonalRound, qrAt_replicate_zero]) (r / 2)

/-- Settles O13: the all-zero State is a fixed point of the permutation, and twice zero is zero. -/
theorem zeroStateGivesZeroBlock : Obligations.ZeroStateGivesZeroBlock := by
  intro r
  rw [block, permute_replicate_zero]
  decide

theorem getElem_feedForward (x S : StateWords) (i : Fin 16) : (feedForward x S)[i] = x[i] + S[i] := by
  simp [feedForward]

/-- Settles O14: the block serializes the words of the feed-forward; the RFC's block is evaluated. -/
theorem blockFunctionSerializesTheFeedForward : Obligations.BlockFunctionSerializesTheFeedForward := by
  refine ⟨fun S r => ⟨length_block S r, fun i m => ?_⟩, permute_zero, permute_add_two, by decide +kernel⟩
  rw [block, getElem?_serialize, getElem_feedForward]

/-! ### The counter -/

/-- Settles O15: what is placed is read back, and no other word changes. -/
theorem counterPlacementTouchesOnlyTheCounterWords : Obligations.CounterPlacementTouchesOnlyTheCounterWords := by
  refine fun S => ⟨rfl, ctr_ext S, fun v hv => ⟨?_, ?_, fun i h12 => ?_⟩, fun v hv => ⟨?_, ?_, ?_, fun i h12 h13 => ?_⟩⟩
  · exact ctr_withCtr .rfc S hv
  · exact ctr_withCtr .rfc S hv
  · exact getElem_withCtr .rfc S v i h12 (.inr rfl)
  · exact ctr_withCtr .ext S hv
  · rw [withCtr_ext_12, BitVec.toNat_ofNat]
  · rw [withCtr_ext_13, BitVec.toNat_ofNat, Nat.mod_eq_of_lt (by omega)]
  · exact getElem_withCtr .ext S v i h12 (.inl h13)

/-- Settles O16: advances add up modulo the counter's width; the corner cases wrap. -/
theorem counterAdvanceWrapsPerLayout : Obligations.CounterAdvanceWrapsPerLayout := by
  refine fun S => ⟨fun k => ⟨ctr_advance .rfc S k, ?_⟩, ctr_advance .ext S, fun h12 => ?_, fun h12 h13 => ?_,
    fun l => advance_advance l S, fun l => advance_zero l S⟩
  · exact getElem_advance .rfc S k 13 (by decide) (.inr rfl)
  · have hc : ctr .rfc S = 0xffffffff := by rw [ctr, h12]; rfl
    rw [advance, hc, withCtr_rfc_12]
    rfl
  · have hc : ctr .ext S = 0xffffffff := by rw [ctr_ext, h12, h13]; rfl
    rw [advance, hc, withCtr_ext_12, withCtr_ext_13]
    exact ⟨rfl, rfl⟩

/-! ### The keystream -/

/-- A whole turn of the counter leaves the State (R111). -/
theorem advance_two_pow_cw (l : Layout) (S : StateWords) : advance l S (2 ^ l.cw) = S := by
  rw [advance, Nat.add_mod_right, Nat.mod_eq_of_lt (ctr_lt l S), withCtr_ctr]

/-- The keystream repeats when the counter has gone round (R112). -/
theorem keyByte_add_period (l : Layout) (S : StateWords) (r j : Nat) :
    keyByte l S r (j + 64 * 2 ^ l.cw) = keyByte l S r j := by
  rw [Nat.add_comm, ← keyByte_advance, advance_two_pow_cw]

/-- Settles O17: the keystream byte by byte; it is periodic because the counter is. -/
theorem keystreamIsTheCounterBlocksInOrder : Obligations.KeystreamIsTheCounterBlocksInOrder :=
  fun l S r n => ⟨length_keystream l S r n, fun _ hj => getElem?_keystream l S r hj,
    fun _ hk => keystream_take l S r hk, fun j => keyByte_add_period .rfc S r j⟩

end Sys2Proof.Machine
end

section
/-! SETUP: the State words it loads, its completion, and its independence of the old State (41_setup.md). -/

namespace Sys2Proof.Machine

/-! ### The words loaded -/

/-- Row 3 of SETUP.EXT with the nonce's halves as numbers (R127, R128). -/
theorem extRow3_eq (s : State) : extRow3 s = #v[0, 0,
    if s.cfg.nonceOrder = .loFirst then BitVec.ofNat 32 (s.a1.toNat % 2 ^ 32) else BitVec.ofNat 32 (s.a1.toNat / 2 ^ 32),
    if s.cfg.nonceOrder = .loFirst then BitVec.ofNat 32 (s.a1.toNat / 2 ^ 32) else BitVec.ofNat 32 (s.a1.toNat % 2 ^ 32)] := by
  rw [← loHalf_eq_ofNat, ← hiHalf_eq_ofNat]
  unfold extRow3
  cases s.cfg.nonceOrder <;> rfl

/-- With a 256-bit key: SIGMA, and the two halves of the key (R124). -/
theorem extWords_false (s : State) :
    extWords false s = ofRows sigma (s.mem.readRow (keyAddr s)) (s.mem.readRow (keyAddr s + 16)) (extRow3 s) := rfl

/-- With a 128-bit key: K128_CONST, and the key twice (R125, R126). -/
theorem extWords_true {s : State} {c : Row} (hc : s.cfg.key128 = some c) :
    extWords true s = ofRows c (s.mem.readRow (keyAddr s)) (s.mem.readRow (keyAddr s)) (extRow3 s) := by
  simp [extWords, hc]

/-! ### Completion -/

/-- SETUP.RFC with its key and nonce bytes reachable completes (R121). -/
theorem exec_setupRfc_of_reachable {s : State} (hk : Reachable s.cfg s.a0.toNat 32) (hn : Reachable s.cfg s.a1.toNat 12) :
    exec .setupRfc s = .next { s with S := rfcWords s, layout := .rfc, valid := true, err := .ok } :=
  exec_of_pass ((checks_setupRfc s).2 ⟨hk, hn⟩)

/-- SETUP.EXT with an admitted key length and its key bytes reachable completes (R123). -/
theorem exec_setupExt_of_reachable {k : Bool} {s : State} (hlen : k = true → s.cfg.key128 ≠ none)
    (hk : Reachable s.cfg s.a0.toNat (keyLen k)) :
    exec (.setupExt k) s = .next { s with S := extWords k s, layout := .ext, valid := true, err := .ok } :=
  exec_of_pass ((checks_setupExt k s).2 ⟨hlen, hk⟩)

/-- Settles O21: the command completes, and the rows it loads are SIGMA, the two rows of the key, and A2[31:0] before the
nonce; their words are `memWord`s by definition (`readWord_eq_memWord`). -/
theorem setupRfcLoadsKeyCounterAndNonce : Obligations.SetupRfcLoadsKeyCounterAndNonce := by
  intro s hk hn
  rw [exec_setupRfc_of_reachable hk hn, ← loHalf_eq_ofNat]
  rfl

/-- Settles O22: K128 = 0 asks nothing of `HAS_KEY128`, and the rows loaded are SIGMA, the two rows of the key, and
`extRow3`. -/
theorem setupExtLoadsA256BitKey : Obligations.SetupExtLoadsA256BitKey := by
  intro s hk
  rw [exec_setupExt_of_reachable (by simp) hk, extWords_false, extRow3_eq]
  rfl

/-- Settles O23: with `HAS_KEY128` = 1 no BAD_KEYBITS is raised, and the one row of the key is loaded twice, below
`K128_CONST`. -/
theorem setupExtDoublesA128BitKey : Obligations.SetupExtDoublesA128BitKey := by
  intro s k hc hk
  rw [exec_setupExt_of_reachable (by simp [hc]) hk, extWords_true hc, extRow3_eq]
  rfl

/-! ### Independence of the old State -/

/-- No check of a SETUP looks at the State, VALID or LAYOUT (R120). -/
theorem checksOf_setup_with_block {i : Instr} (s : State) (hi : i = .setupRfc ∨ ∃ k, i = .setupExt k) (S' : StateWords)
    (v' : Bool) (l' : Layout) : checksOf i { s with S := S', valid := v', layout := l' } = checksOf i s := by
  rcases hi with rfl | ⟨k, rfl⟩ <;> rfl

/-- The effect of a SETUP overwrites the State, VALID and LAYOUT with values that do not depend on them (R120). -/
theorem effectOf_setup_with_block {i : Instr} (s : State) (hi : i = .setupRfc ∨ ∃ k, i = .setupExt k) (S' : StateWords)
    (v' : Bool) (l' : Layout) : effectOf i { s with S := S', valid := v', layout := l' } = effectOf i s := by
  rcases hi with rfl | ⟨k, rfl⟩ <;> rfl

/-- Settles O24: both runs make the same checks, so both fault with one code, or both complete, and then in one state. -/
theorem setupDoesNotReadTheOldState : Obligations.SetupDoesNotReadTheOldState := by
  intro i s S' v' l' t t' hi h h'
  rw [exec_eq_finish, checksOf_setup_with_block s hi, effectOf_setup_with_block s hi] at h'
  rcases exec_cases h with ⟨f, hf, rfl⟩ | ⟨hpass, rfl⟩
  · obtain rfl := Host.Outcome.next.inj ((finish_fault hf).symm.trans h')
    simp
  · obtain rfl := Host.Outcome.next.inj ((finish_pass hpass).symm.trans h')
    obtain ⟨l, S, he⟩ := effectOf_setup s hi
    simp [he]

end Sys2Proof.Machine
end

section
/-! The lanes of the SIMD backends compute the round core (42_block.md R146 to R148). -/

namespace Sys2Proof.Machine

/-! ### One block in four lanes (R146) -/

/-- Lane j of the row vectors is column j of the State (R104). -/
theorem laneQr_toRows (x : StateWords) : laneQr (toRows x) = toRows (columnRound x) := by
  obtain ⟨x0, x1, x2, x3, x4, x5, x6, x7, x8, x9, x10, x11, x12, x13, x14, x15, rfl⟩ := stateWords_literal x
  rw [toRows_literal, laneQr_literal, columnRound_literal, toRows_literal]

/-- With rows 1, 2, 3 rotated by 1, 2, 3, lane j is diagonal j of the State (R105). -/
theorem laneDoubleRound_of_laneQr {x : LaneRows 4} {y : StateWords} (h : laneQr x = toRows y) :
    laneDoubleRound x = toRows (diagonalRound y) := by
  obtain ⟨x0, x1, x2, x3, x4, x5, x6, x7, x8, x9, x10, x11, x12, x13, x14, x15, rfl⟩ := stateWords_literal y
  rw [toRows_literal] at h
  simp only [laneDoubleRound, h, rotLanes_one, rotLanes_two, rotLanes_three, laneQr_literal, diagonalRound_literal,
    toRows_literal]

theorem laneDoubleRound_toRows (x : StateWords) : laneDoubleRound (toRows x) = toRows (doubleRound x) :=
  laneDoubleRound_of_laneQr (laneQr_toRows x)

/-- Settles O18: the lanes hold the columns, and after the rotations the diagonals. -/
theorem intraBlockLanesComputeTheDoubleRound : Obligations.IntraBlockLanesComputeTheDoubleRound :=
  fun x => ⟨laneQr_toRows x, laneDoubleRound_toRows x⟩

/-! ### Two blocks in the halves of eight lanes (R147) -/

/-- Rotating the lanes of each half rotates the lanes of each State's rows. -/
theorem rotHalves_wideRows (x y : LaneRows 4) (a b c : Nat) :
    (⟨(wideRows x y).v0, rotHalves (wideRows x y).v1 a, rotHalves (wideRows x y).v2 b,
        rotHalves (wideRows x y).v3 c⟩ : LaneRows 8) =
      wideRows ⟨x.v0, rotLanes x.v1 a, rotLanes x.v2 b, rotLanes x.v3 c⟩
        ⟨y.v0, rotLanes y.v1 a, rotLanes y.v2 b, rotLanes y.v3 c⟩ := by
  simp only [wideRows, rotHalves_wideJoin]

theorem wideDoubleRound_wideRows (x y : LaneRows 4) :
    wideDoubleRound (wideRows x y) = wideRows (laneDoubleRound x) (laneDoubleRound y) := by
  simp only [wideDoubleRound, laneDoubleRound, laneQr_wideRows, rotHalves_wideRows]

theorem iterate_wideDoubleRound (x y : StateWords) (n : Nat) :
    Nat.iterate wideDoubleRound n (wideRows (toRows x) (toRows y)) =
      wideRows (toRows (Nat.iterate doubleRound n x)) (toRows (Nat.iterate doubleRound n y)) := by
  induction n generalizing x y with
  | zero => rfl
  | succ n ih =>
    simp only [Function.iterate_succ_apply, wideDoubleRound_wideRows, laneDoubleRound_toRows, ih]

theorem laneAdd_wideRows (x y x' y' : LaneRows 4) :
    laneAdd (wideRows x y) (wideRows x' y') = wideRows (laneAdd x x') (laneAdd y y') := by
  simp only [laneAdd, wideRows, LaneRows.mk.injEq]
  refine ⟨?_, ?_, ?_, ?_⟩ <;> refine Vector.ext fun n hn => ?_ <;> interval_cases n <;> rfl

/-- Adding the rows is the feed-forward (R108). -/
theorem laneAdd_toRows (x S : StateWords) : laneAdd (toRows x) (toRows S) = toRows (feedForward x S) := by
  simp only [laneAdd, toRows, feedForward, LaneRows.mk.injEq, Vector.getElem_ofFn]
  exact ⟨rfl, rfl, rfl, rfl⟩

theorem laneWords_toRows (x : StateWords) : laneWords (toRows x) = x := by
  obtain ⟨x0, x1, x2, x3, x4, x5, x6, x7, x8, x9, x10, x11, x12, x13, x14, x15, rfl⟩ := stateWords_literal x
  rfl

theorem laneWords_lowRows (x y : StateWords) : laneWords (lowRows (wideRows (toRows x) (toRows y))) = x :=
  laneWords_toRows x

theorem laneWords_highRows (x y : StateWords) : laneWords (highRows (wideRows (toRows x) (toRows y))) = y :=
  laneWords_toRows y

theorem wideBlocks_eq_append (S0 S1 : StateWords) (r : Nat) : wideBlocks S0 S1 r = block S0 r ++ block S1 r := by
  simp only [wideBlocks, iterate_wideDoubleRound, laneAdd_wideRows, laneAdd_toRows, laneWords_lowRows,
    laneWords_highRows, block, permute]

/-- Settles O19: the halves do not mix, for any two States, so for those at counters c and c+1. -/
theorem interBlockLanesComputeTwoBlocks : Obligations.InterBlockLanesComputeTwoBlocks :=
  fun _ _ r => ⟨iterate_wideDoubleRound _ _ (r / 2), wideBlocks_eq_append _ _ r⟩

/-! ### Rotations by whole bytes (R148) -/

/-- The upper 32 - n bits move up and the top n bits come round to the bottom (R100). -/
theorem getLsbD_rotl (x : Word) {n i : Nat} (hn : n < 32) (hi : i < 32) :
    (rotl x n).getLsbD i = x.getLsbD (if i < n then 32 - n + i else i - n) := by
  rw [rotl_eq x n hn, BitVec.getLsbD_rotateLeft, Nat.mod_eq_of_lt hn]
  by_cases h : i < n <;> simp [h, hi]

theorem rotl_rotl (x : Word) {m n : Nat} (h : m + n < 32) : rotl (rotl x m) n = rotl x (m + n) := by
  refine BitVec.eq_of_getLsbD_eq fun i hi => ?_
  rw [getLsbD_rotl _ (by omega) hi, getLsbD_rotl _ (by omega) (by split <;> omega), getLsbD_rotl _ h hi]
  congr 1
  split_ifs <;> omega

/-- Each byte moves up one place and the last comes round to the first. -/
theorem rotl_eight_le32 (b0 b1 b2 b3 : Byte) : rotl (le32 b0 b1 b2 b3) 8 = le32 b3 b0 b1 b2 := by
  refine BitVec.eq_of_getLsbD_eq fun i hi => ?_
  rw [getLsbD_rotl _ (by decide) hi, getLsbD_le32, getLsbD_le32]
  grind

theorem rotl_sixteen_le32 (b0 b1 b2 b3 : Byte) : rotl (le32 b0 b1 b2 b3) 16 = le32 b2 b3 b0 b1 := by
  rw [← rotl_rotl _ (show 8 + 8 < 32 by decide), rotl_eight_le32, rotl_eight_le32]

theorem shuffle16_le32 (b0 b1 b2 b3 : Byte) : shuffle16 (le32 b0 b1 b2 b3) = le32 b2 b3 b0 b1 := by
  obtain ⟨h0, h1, h2, h3⟩ := extract_le32 b0 b1 b2 b3
  rw [shuffle16, h0, h1, h2, h3]

theorem shuffle8_le32 (b0 b1 b2 b3 : Byte) : shuffle8 (le32 b0 b1 b2 b3) = le32 b3 b0 b1 b2 := by
  obtain ⟨h0, h1, h2, h3⟩ := extract_le32 b0 b1 b2 b3
  rw [shuffle8, h0, h1, h2, h3]

/-- Settles O20: a rotation by 16 is two rotations by one byte; those by 12 and 7 are R100's definition. -/
theorem byteRotationsAreShuffles : Obligations.ByteRotationsAreShuffles := by
  rintro _ b0 b1 b2 b3 rfl
  have h16 := rotl_sixteen_le32 b0 b1 b2 b3
  have h8 := rotl_eight_le32 b0 b1 b2 b3
  exact ⟨h16, h8, h16.trans (shuffle16_le32 b0 b1 b2 b3).symm, h8.trans (shuffle8_le32 b0 b1 b2 b3).symm, rfl, rfl⟩

end Sys2Proof.Machine
end

section
/-! The block commands, and k BLOCK.S commands as one BLOCKS(k, r) (42_block.md R140 to R145). -/

namespace Sys2Proof.Machine

/-! ### BLOCKS(k, r) completes -/

theorem runBlocks_completes {k r : Nat} {s : State} (hr : r % 2 = 0) (hk : k ≠ 0) (hv : s.valid = true)
    (hb : BuffersOk s (64 * k)) : runBlocks k r s = .next (complete (produce r (64 * k) k s)) :=
  finish_pass (checks_stream.2 ⟨hr, by simpa using hk, hv, hb⟩)

/-- Each block command is BLOCKS at its own stride (R141, R143, R144). -/
theorem exec_eq_runBlocks {i : Instr} {r k : Nat} {s : State}
    (hi : (i = .blockS r ∧ k = 1) ∨ (i = .blockA r ∧ k = s.cfg.strideA) ∨ (i = .blockB r ∧ k = s.cfg.strideB)) :
    exec i s = runBlocks k r s := by
  rcases hi with ⟨rfl, rfl⟩ | ⟨rfl, rfl⟩ | ⟨rfl, rfl⟩ <;> rfl

/-- Settles O25: the command is BLOCKS(k, r), which completes with its production. -/
theorem blockCommandsXorTheKeystream : Obligations.BlockCommandsXorTheKeystream := by
  intro i r k s hi hm hr hk hv hb
  exact ⟨(produce r (64 * k) k s).mem, (exec_eq_runBlocks hi).trans (runBlocks_completes hr hk hv hb),
    produce_wf r _ k hm, produce_xorInto r _ k hm⟩

/-! ### The argument registers between chunks (R142) -/

/-- A0 and A1 moved past k blocks, as the host moves them between commands. -/
def advanceArgs (k : Nat) (s : State) : State :=
  { s with a0 := s.a0 + BitVec.ofNat 64 (64 * k), a1 := s.a1 + BitVec.ofNat 64 (64 * k) }

theorem advanceArgs_advanceArgs (j k : Nat) (s : State) :
    advanceArgs k (advanceArgs j s) = advanceArgs (j + k) s := by
  simp only [advanceArgs, Nat.mul_add, BitVec.ofNat_add, BitVec.add_assoc]

/-- An address that stays inside the buffer memory does not wrap. -/
theorem toNat_add_ofNat {c : Config} {a : DWord} {n : Nat} (hc : c.wellFormed = true) (h : a.toNat + n < 2 ^ c.addrW) :
    (a + BitVec.ofNat 64 n).toNat = a.toNat + n := by
  simp only [Config.wellFormed, Bool.and_eq_true, decide_eq_true_eq] at hc
  have hle := Nat.pow_le_pow_right (show 0 < 2 by decide) hc.2
  rw [BitVec.toNat_add, BitVec.toNat_ofNat, Nat.add_mod_mod, Nat.mod_eq_of_lt (by omega)]

section
variable {k r : Nat} {s : State} (hc : s.cfg.wellFormed = true) (hk : k ≠ 0) (hb : BuffersOk s (64 * 1 + 64 * k))
include hc hk hb

theorem toNat_advanceArgs_one :
    (advanceArgs 1 s).a0.toNat = s.a0.toNat + 64 * 1 ∧ (advanceArgs 1 s).a1.toNat = s.a1.toNat + 64 * 1 := by
  obtain ⟨⟨⟨-, h0⟩, -⟩, ⟨⟨-, h1⟩, -⟩, -⟩ := hb
  exact ⟨toNat_add_ofNat hc (by omega), toNat_add_ofNat hc (by omega)⟩

/-- Past the first of k + 1 blocks, the buffers of the other k are admitted. -/
theorem buffersOk_advanceArgs_one : BuffersOk (advanceArgs 1 s) (64 * k) := by
  obtain ⟨e0, e1⟩ := toNat_advanceArgs_one hc hk hb
  obtain ⟨h0, h1, hn⟩ := hb
  unfold BuffersOk
  rw [e0, e1]
  refine ⟨h0.suffix (by omega), h1.suffix (by omega), ?_⟩
  unfold NoClash at *
  omega

/-- One block, then k blocks at the advanced bases, are k + 1 blocks. -/
theorem produce_advanceArgs_one :
    complete (produce r (64 * k) k (advanceArgs 1 (complete (produce r (64 * 1) 1 s)))) =
      advanceArgs 1 (complete (produce r (64 * 1 + 64 * k) (1 + k) s)) := by
  obtain ⟨e0, e1⟩ := toNat_advanceArgs_one hc hk hb
  have hin : inAddr (advanceArgs 1 (complete (produce r (64 * 1) 1 s))) = inAddr s + 64 * 1 := e0
  have hout : outAddr (advanceArgs 1 (complete (produce r (64 * 1) 1 s))) = outAddr s + 64 * 1 := e1
  rw [← produce_append r 1 (64 * k) k s hb.2.2, produce, hin, hout]
  simp only [complete, advanceArgs, produce_layout, produce_a0, produce_a1]

end

/-! ### k BLOCK.S commands (R142) -/

theorem scalarRun_succ {r : Nat} (k : Nat) {s : State} (hr : r % 2 = 0) (hv : s.valid = true)
    (hb : BuffersOk s (64 * 1)) :
    scalarRun r (k + 1) s = scalarRun r k (advanceArgs 1 (complete (produce r (64 * 1) 1 s))) := by
  rw [scalarRun, exec_eq_runBlocks (.inl ⟨rfl, rfl⟩), runBlocks_completes hr one_ne_zero hv hb]
  rfl

/-- k BLOCK.S commands leave what BLOCKS(k, r) leaves, with A0 and A1 past the blocks. -/
theorem scalarRun_completes {k r : Nat} {s : State} (hc : s.cfg.wellFormed = true) (hr : r % 2 = 0) (hk : k ≠ 0)
    (hv : s.valid = true) (hb : BuffersOk s (64 * k)) :
    scalarRun r k s = .next (advanceArgs k (complete (produce r (64 * k) k s))) := by
  induction k generalizing s with
  | zero => exact absurd rfl hk
  | succ k ih =>
    rw [scalarRun_succ k hr hv (hb.mono (by omega))]
    rw [Nat.add_comm k 1, Nat.mul_add] at hb ⊢
    by_cases hk0 : k = 0
    · subst hk0
      rfl
    · have hb' : BuffersOk (advanceArgs 1 (complete (produce r (64 * 1) 1 s))) (64 * k) :=
        buffersOk_advanceArgs_one (s := s) hc hk0 hb
      rw [ih (s := advanceArgs 1 (complete (produce r (64 * 1) 1 s))) hc hk0 hv hb', produce_advanceArgs_one hc hk0 hb,
        advanceArgs_advanceArgs]

/-- Settles O29: the two end states are one, but for A0 and A1. -/
theorem backendChoiceNeverChangesResults : Obligations.BackendChoiceNeverChangesResults := by
  intro k r s hm hc hr hk hv hb
  exact ⟨_, _, runBlocks_completes hr hk hv hb, scalarRun_completes hc hr hk hv hb, rfl, rfl, rfl, rfl, rfl,
    produce_xorInto r _ k hm⟩

end Sys2Proof.Machine
end

section
/-! ENCRYPT: what it does to memory and the counter, and the driver's schedule of chunks (43_stream.md R161 to R165). -/

namespace Sys2Proof.Machine

/-! ### ENCRYPT completes -/

theorem exec_encrypt_of_admitted {r : Nat} {s : State} (hr : r % 2 = 0) (hv : s.valid = true)
    (hb : BuffersOk s s.a2.toNat) :
    exec (.encrypt r) s = .next (complete (produce r s.a2.toNat (blocksFor s.a2.toNat) s)) :=
  exec_of_pass ((checks_encrypt r s).2 ⟨hr, hv, hb⟩)

/-- Settles O26: the checks pass and the effect is production of N bytes. -/
theorem encryptXorsTheKeystream : Obligations.EncryptXorsTheKeystream := fun r s hm hr hv hb =>
  ⟨(produce r s.a2.toNat (blocksFor s.a2.toNat) s).mem, exec_encrypt_of_admitted hr hv hb, produce_wf r _ _ hm,
    produce_xorInto r _ _ hm⟩

/-- An ENCRYPT that completes advances the counter by its blocks (R164). -/
theorem encrypt_completed_S {r : Nat} {s t : State} (h : exec (.encrypt r) s = .next t) (ht : t.err = .ok) :
    t.S = advance s.layout s.S (blocksFor s.a2.toNat) := by
  obtain ⟨-, rfl⟩ := completed_of_ok h ht
  rfl

/-- Settles O27: production advances the counter by its blocks, modulo the layout's width. -/
theorem encryptAdvancesTheCounterByItsBlocks : Obligations.EncryptAdvancesTheCounterByItsBlocks := by
  intro r s t h ht
  have hctr : ctr s.layout t.S = (ctr s.layout s.S + (s.a2.toNat + 63) / 64) % 2 ^ s.layout.cw := by
    rw [encrypt_completed_S h ht]
    exact ctr_advance _ _ _
  refine ⟨?_, fun hl => ?_, fun hl => ?_⟩
  · rw [(completed_of_ok h ht).2]
    rfl
  · rwa [hl] at hctr
  · rwa [hl] at hctr

/-! ### No bytes (R165) -/

theorem effectOf_encrypt_of_zero {r : Nat} {s : State} (hn : s.a2 = 0) : effectOf (.encrypt r) s = s := by
  have hlen : byteCount s = 0 := by simp [byteCount, hn]
  rw [effectOf, hlen]
  exact produce_zero r s

/-- Empty buffers are admitted when their bases are in the space: they cannot clash, and have no byte to back. -/
theorem buffersOk_zero {s : State} (h0 : s.a0.toNat < 2 ^ s.cfg.addrW) (h1 : s.a1.toNat < 2 ^ s.cfg.addrW) :
    BuffersOk s 0 := by
  have hempty {b : Nat} (hb : b < 2 ^ s.cfg.addrW) : Reachable s.cfg b 0 :=
    ⟨⟨hb, hb.le⟩, fun a hlo hhi => absurd hhi (by omega)⟩
  exact ⟨hempty h0, hempty h1, .inr (.inr (.inr rfl))⟩

/-- An empty range can leave the address space only when that is smaller than 2^64 (R67). -/
theorem addrW_lt_of_not_inSpace {c : Config} {a : DWord} (h : ¬ InSpace c a.toNat 0) : c.addrW < 64 := by
  by_contra hw
  have hpow : 2 ^ 64 ≤ 2 ^ c.addrW := Nat.pow_le_pow_right (by decide) (by omega)
  have hlt := a.isLt
  exact h ⟨by omega, by omega⟩

/-- An ENCRYPT of no bytes faults, or only sets ERR to 0. -/
theorem encrypt_zero_cases {r : Nat} {s t : State} (hn : s.a2 = 0) (h : exec (.encrypt r) s = .next t) :
    (∃ f, firstFault (checksOf (.encrypt r) s) = some f ∧ t = raise f s) ∨ t = { s with err := .ok } := by
  rcases exec_cases h with hfault | ⟨-, rfl⟩
  · exact .inl hfault
  · exact .inr (congrArg complete (effectOf_encrypt_of_zero hn))

theorem encrypt_zero_keeps {r : Nat} {s t : State} (hn : s.a2 = 0) (h : exec (.encrypt r) s = .next t) :
    t.mem = s.mem ∧ t.S = s.S := by
  rcases encrypt_zero_cases hn h with ⟨f, -, rfl⟩ | rfl <;> exact ⟨rfl, rfl⟩

/-- The RANGE fault of an ENCRYPT of no bytes has one of its two bases as its cause. -/
theorem addrW_lt_of_cause_range {r : Nat} {s : State} (hlen : s.a2.toNat = 0) (h : Cause (.encrypt r) s .range) :
    s.cfg.addrW < 64 := by
  obtain ⟨p, hp, hnot⟩ := h
  simp only [reads, writes, hlen, List.cons_append, List.nil_append, List.mem_cons, List.not_mem_nil, or_false] at hp
  rcases hp with rfl | rfl <;> exact addrW_lt_of_not_inSpace hnot

/-- Settles O28: a fault changes only its record, and production of no bytes changes nothing; which of the two it is, the
checks say in their order. -/
theorem encryptOfNothingChangesNothing : Obligations.EncryptOfNothingChangesNothing := by
  intro r s t hn h
  have hlen : s.a2.toNat = 0 := by simp [hn]
  obtain ⟨hmem, hS⟩ := encrypt_zero_keeps hn h
  have hends {f : FaultCode} (hf : exec (.encrypt r) s = .next (raise f s)) : t.err = .fault f := by
    rw [Host.Outcome.next.inj (h.symm.trans hf), raise_err]
  refine ⟨hmem, hS, fun hr => ?_, fun hr hv => ?_, fun hr hv hout => ?_, fun ht => ?_, fun hr hv h0 h1 => ?_⟩
  · exact hends (exec_of_fault (firstFault_checksOf_of_odd (by simp) hr))
  · exact hends ((unavailableAndUninitialisedFaults s r hr).2.2 hv _ (by simp) (by simp [stride?]))
  · refine hends ((rangeThenOverlapThenBus (.encrypt r) s r 0 (by simp) hr hv (by simp [stride?]) hlen.symm).1 ?_)
    exact hout.imp (fun h0 hin => absurd hin.1 h0.not_gt) (fun h1 hin => absurd hin.1 h1.not_gt)
  · rcases encrypt_zero_cases hn h with ⟨f, hf, rfl⟩ | rfl
    · obtain rfl : f = .range := by simpa using ht
      exact addrW_lt_of_cause_range hlen ((mem_checksOf _ _ _).1 (firstFault_mem hf))
    · cases ht
  · rcases encrypt_zero_cases hn h with ⟨f, hf, -⟩ | heq
    · rw [(checks_encrypt r s).2 ⟨hr, hv, hlen ▸ buffersOk_zero h0 h1⟩] at hf
      cases hf
    · exact heq

/-! ### The driver's schedule (R162) -/

/-- A chunk at the position that k whole blocks reached: it leaves what one production up to its end leaves. -/
theorem runChunks_cons (r k len : Nat) (rest : List Nat) {s : State}
    (hc : NoClash s.a0.toNat s.a1.toNat (64 * k + len)) :
    runChunks r (len :: rest) (64 * k) (produce r (64 * k) k s) =
      runChunks r rest (64 * k + len) (produce r (64 * k + len) (blocksFor (64 * k + len)) s) := by
  rw [blocksFor_add, ← produce_append r k len (blocksFor len) s hc]
  rfl

/-- Whole-block chunks leave what one production of as many blocks leaves. -/
theorem runChunks_whole (r : Nat) (ks rest : List Nat) (k : Nat) {s : State}
    (hc : NoClash s.a0.toNat s.a1.toNat (64 * (k + ks.sum))) :
    runChunks r (ks.map (64 * ·) ++ rest) (64 * k) (produce r (64 * k) k s) =
      runChunks r rest (64 * (k + ks.sum)) (produce r (64 * (k + ks.sum)) (k + ks.sum) s) := by
  induction ks generalizing k with
  | nil => rfl
  | cons j ks ih =>
    rw [List.sum_cons, ← Nat.add_assoc] at hc ⊢
    rw [List.map_cons, List.cons_append, runChunks_cons r k (64 * j) _ (hc.mono (by omega)), ← Nat.mul_add, blocksFor_mul,
      ih (k + j) hc]

/-- R162's chunks are whole-block chunks of N / 64 blocks together, then what is left of N. -/
theorem scheduleChunks_eq (stride n : Nat) : ∃ ks : List Nat, ks.sum = n / 64 ∧
    scheduleChunks stride n = ks.map (64 * ·) ++ if n % 64 = 0 then [] else [n % 64] := by
  have hwide : n / (64 * stride) * (64 * stride) ≤ n := Nat.div_mul_le_self n (64 * stride)
  simp only [scheduleChunks]
  generalize n / (64 * stride) = wide at hwide ⊢
  rw [Nat.mul_left_comm] at hwide ⊢
  have hmod : (n - 64 * (wide * stride)) % 64 = n % 64 := by omega
  refine ⟨List.replicate wide stride ++ List.replicate ((n - 64 * (wide * stride)) / 64) 1, ?_, ?_⟩
  · simp only [List.sum_append, List.sum_replicate, smul_eq_mul, mul_one]
    omega
  · simp only [hmod, List.map_append, List.map_replicate, mul_one]

/-- The schedule at any stride is one production. -/
theorem runChunks_scheduleChunks (r stride n : Nat) {s : State} (hc : NoClash s.a0.toNat s.a1.toNat n) :
    runChunks r (scheduleChunks stride n) 0 s = produce r n (blocksFor n) s := by
  obtain ⟨ks, hsum, hks⟩ := scheduleChunks_eq stride n
  have hcut : 64 * (0 + ks.sum) + n % 64 = n := by omega
  have hwhole := runChunks_whole r ks (if n % 64 = 0 then [] else [n % 64]) 0
    (hc.mono (show 64 * (0 + ks.sum) ≤ n by omega))
  rw [Nat.mul_zero, produce_zero] at hwhole
  rw [hks, hwhole]
  split
  · next hmod =>
    rw [hmod, Nat.add_zero] at hcut
    rw [runChunks, ← hcut, blocksFor_mul]
  · rw [runChunks_cons r _ _ _ (hcut.symm ▸ hc), hcut]
    rfl

/-- Settles O30: the schedule and ENCRYPT are the same production. -/
theorem encryptScheduleIsNotObservable : Obligations.EncryptScheduleIsNotObservable := by
  intro r s hr hv hb
  have hany (stride : Nat) : exec (.encrypt r) s =
      .next { runChunks r (scheduleChunks stride s.a2.toNat) 0 s with err := .ok } := by
    rw [runChunks_scheduleChunks r stride _ hb.2.2, exec_encrypt_of_admitted hr hv hb]
    rfl
  exact ⟨hany, hany (scheduleStride s.cfg)⟩

end Sys2Proof.Machine
end

section
/-! Two ENCRYPTs compared: a stream split in two, a stream undone, and a stream cut short (43_stream.md R166 to R168). -/

namespace Sys2Proof.Machine

/-! ### Splitting (R166) -/

/-- On admitted buffers the first part of a stream does not write the input of the second. -/
theorem XorInto.read_later_input {m0 m1 : Memory} {i o n1 n2 j : Nat} {ks : Nat → Byte} (h : XorInto m0 m1 i o n1 ks)
    (hc : NoClash i o (n1 + n2)) (hj : j < n2) : m1.read (i + n1 + j) = m0.read (i + n1 + j) :=
  h.2 _ (by unfold NoClash at hc; omega)

/-- Two parts of a stream, one after the other, are the stream. -/
theorem XorInto.append {m0 m1 m2 : Memory} {i o n1 n2 : Nat} {ks : Nat → Byte} (h1 : XorInto m0 m1 i o n1 ks)
    (h2 : XorInto m1 m2 (i + n1) (o + n1) n2 fun j => ks (n1 + j)) (hc : NoClash i o (n1 + n2)) :
    XorInto m0 m2 i o (n1 + n2) ks := by
  refine ⟨fun j hj => ?_, fun a ha => ?_⟩
  · rcases Nat.lt_or_ge j n1 with hlt | hge
    · rw [h2.2 _ (by omega), h1.1 j hlt]
    · obtain ⟨k, rfl⟩ := Nat.exists_eq_add_of_le hge
      rw [← Nat.add_assoc, ← Nat.add_assoc, h2.1 k (by omega), h1.read_later_input hc (by omega)]
  · rw [h2.2 a (by omega), h1.2 a (by omega)]

/-- The address after a part of a range inside the buffer memory that is not all of it does not wrap. -/
theorem InSpace.toNat_add {c : Config} {a n : DWord} {k : Nat} (hc : c.wellFormed = true)
    (h : InSpace c a.toNat (n.toNat + k)) (hk : 0 < k) : (a + n).toNat = a.toNat + n.toNat := by
  obtain ⟨-, hend⟩ := h
  have hadd := toNat_add_ofNat (a := a) (n := n.toNat) hc (by omega)
  rwa [BitVec.ofNat_toNat, BitVec.setWidth_eq] at hadd

/-- The second of two ENCRYPTs over consecutive buffers: it starts at the next whole block. -/
theorem encrypt_consecutive {r : Nat} {n1 n2 : DWord} {s t1 t2 : State} (hm : s.mem.wf) (hc : s.cfg.wellFormed = true)
    (hb : BuffersOk s (n1.toNat + n2.toNat)) (h1 : exec (.encrypt r) { s with a2 := n1 } = .next t1) (e1 : t1.err = .ok)
    (h2 : exec (.encrypt r) { t1 with a0 := s.a0 + n1, a1 := s.a1 + n1, a2 := n2 } = .next t2) (e2 : t2.err = .ok)
    (hn2 : 0 < n2.toNat) :
    t2.mem.wf ∧ t2.S = advance s.layout s.S (blocksFor n1.toNat + blocksFor n2.toNat) ∧
    XorInto s.mem t1.mem s.a0.toNat s.a1.toNat n1.toNat (keyByte s.layout s.S r) ∧
    XorInto t1.mem t2.mem (s.a0.toNat + n1.toNat) (s.a1.toNat + n1.toNat) n2.toNat fun j =>
      keyByte s.layout s.S r (64 * blocksFor n1.toNat + j) := by
  obtain ⟨-, -, -, hm1, ht1, hx1⟩ := encrypt_completed (s := { s with a2 := n1 }) hm h1 e1
  obtain ⟨-, -, -, hm2, -, hx2⟩ :=
    encrypt_completed (s := { t1 with a0 := s.a0 + n1, a1 := s.a1 + n1, a2 := n2 }) hm1 h2 e2
  have hl1 : t1.layout = s.layout := by rw [ht1]
  have hS1 : t1.S = advance s.layout s.S (blocksFor n1.toNat) := encrypt_completed_S h1 e1
  have hS2 : t2.S = advance t1.layout t1.S (blocksFor n2.toNat) := encrypt_completed_S h2 e2
  refine ⟨hm2, by rw [hS2, hl1, hS1, advance_advance], hx1, ?_⟩
  simp only [hl1, hS1, funext (keyByte_advance s.layout s.S r _), hb.1.1.toNat_add hc hn2, hb.2.1.1.toNat_add hc hn2] at hx2
  exact hx2

theorem blocksFor_of_whole {n : Nat} (h : n % 64 = 0) : 64 * blocksFor n = n := by
  obtain ⟨k, rfl⟩ := Nat.dvd_of_mod_eq_zero h
  rw [blocksFor_mul]

/-- One ENCRYPT of N1 + N2 bytes, N1 whole blocks, leaves any canonical memory with its stream's bytes, and the counter that
the two parts' blocks give. -/
theorem encrypt_whole {r : Nat} {n1 n2 : DWord} {s : State} {m : Memory} (hm : s.mem.wf)
    (hlt : n1.toNat + n2.toNat < 2 ^ 64) (hb : BuffersOk s (n1.toNat + n2.toNat)) (hr : r % 2 = 0) (hv : s.valid = true)
    (hmod : n1.toNat % 64 = 0) (hwf : m.wf)
    (hx : XorInto s.mem m s.a0.toNat s.a1.toNat (n1.toNat + n2.toNat) (keyByte s.layout s.S r)) :
    ∃ t, exec (.encrypt r) { s with a2 := n1 + n2 } = .next t ∧ t.err = .ok ∧ m = t.mem ∧
      advance s.layout s.S (blocksFor n1.toNat + blocksFor n2.toNat) = t.S := by
  have hsum : (n1 + n2).toNat = n1.toNat + n2.toNat := by rw [BitVec.toNat_add, Nat.mod_eq_of_lt hlt]
  have hblocks : blocksFor (n1 + n2).toNat = blocksFor n1.toNat + blocksFor n2.toNat := by
    rw [hsum, ← blocksFor_add, blocksFor_of_whole hmod]
  rw [← hsum] at hb hx
  have hrun := exec_encrypt_of_admitted (s := { s with a2 := n1 + n2 }) hr hv hb
  obtain ⟨-, -, -, hwf', -, hx'⟩ := encrypt_completed (s := { s with a2 := n1 + n2 }) hm hrun rfl
  refine ⟨_, hrun, rfl, eq_of_xorInto hwf hwf' hx hx', ?_⟩
  rw [encrypt_completed_S hrun rfl, hblocks]

/-- Settles O32: with no second part there is nothing to compare; otherwise the second part's memory and counter are those
of the whole stream from the next whole block on, which is the whole stream's own place when N1 is a multiple of 64. -/
theorem splitStreamsMeetAtWholeBlocks : Obligations.SplitStreamsMeetAtWholeBlocks := by
  intro r n1 n2 s t1 t2 hm hc hlt hb h1 e1 h2 e2
  rcases Nat.eq_zero_or_pos n2.toNat with hz | hpos
  · obtain rfl : n2 = 0 := BitVec.eq_of_toNat_eq hz
    obtain ⟨hmem, hS⟩ := encrypt_zero_keeps rfl h2
    exact ⟨fun _ => ⟨t1, by rwa [add_zero], e1, hmem, hS⟩, fun j hj => absurd hj (by simp)⟩
  · obtain ⟨hwf, hS, hx1, hx2⟩ := encrypt_consecutive hm hc hb h1 e1 h2 e2 hpos
    refine ⟨fun hor => ?_, fun j hj => ?_⟩
    · have hmod : n1.toNat % 64 = 0 := hor.resolve_right fun h => by simp [h] at hpos
      obtain ⟨hr, hv, -⟩ := encrypt_completed (s := { s with a2 := n1 }) hm h1 e1
      rw [blocksFor_of_whole hmod] at hx2
      rw [hS]
      exact encrypt_whole hm hlt hb hr hv hmod hwf (hx1.append hx2 hb.2.2)
    · rw [hx2.1 j hj, hx1.read_later_input hb.2.2 hj]
      rfl

/-! ### Undoing (R167) and cutting short (R168) -/

/-- The same bytes XORed in twice cancel. -/
theorem XorInto.undo {m0 m1 m2 : Memory} {i o p len : Nat} {ks : Nat → Byte} (h1 : XorInto m0 m1 i o len ks)
    (h2 : XorInto m1 m2 o p len ks) {j : Nat} (hj : j < len) : m2.read (p + j) = m0.read (i + j) := by
  rw [h2.1 j hj, h1.1 j hj, BitVec.xor_assoc, BitVec.xor_self, BitVec.xor_zero]

/-- Settles O33: both runs XOR in the same keystream, and a buffer that could be written can be rewritten in place. -/
theorem encryptIsItsOwnInverse : Obligations.EncryptIsItsOwnInverse := by
  intro r s t hm h ht
  obtain ⟨hr, hv, hb, hwf, heq, hx⟩ := encrypt_completed hm h ht
  have ⟨hl, ha2⟩ : t.layout = s.layout ∧ t.a2 = s.a2 := by rw [heq]; exact ⟨rfl, rfl⟩
  refine ⟨encrypt_completed_S h ht, fun o u hu hok j hj => ?_, ?_⟩
  · obtain ⟨-, -, -, -, -, hx'⟩ := encrypt_completed (s := { t with S := s.S, a0 := s.a1, a1 := o }) hwf hu hok
    simp only [hl, ha2] at hx'
    exact hx.undo hx' hj
  · have hbuf : BuffersOk { t with S := s.S, a0 := s.a1 } t.a2.toNat := by
      rw [heq]
      exact ⟨hb.2.1, hb.2.1, .inl rfl⟩
    exact exec_producer_completes (r := r) (by simp) hr (by rw [heq]; exact hv) (by simp [stride?]) hbuf

/-- Settles O34: each output byte is the same function of the input and the State, whatever the count. -/
theorem shorterEncryptIsAPrefix : Obligations.ShorterEncryptIsAPrefix := by
  intro r n n' s t t' hm hle h e h' e'
  obtain ⟨-, -, -, -, -, hx⟩ := encrypt_completed (s := { s with a2 := n }) hm h e
  obtain ⟨-, -, -, -, -, hx'⟩ := encrypt_completed (s := { s with a2 := n' }) hm h' e'
  refine ⟨fun j hj => (hx.1 j hj).trans (hx'.1 j (hj.trans_le hle)).symm, fun hne hblocks => hne ?_⟩
  rw [encrypt_completed_S h e, encrypt_completed_S h' e']
  exact congrArg (advance s.layout s.S) hblocks

end Sys2Proof.Machine
end

section
/-! How a command ends, fault or completion, and what its record keeps (60_exceptions.md R200 to R204). -/

namespace Sys2Proof.Machine

/-! ### The checks and the causes -/

/-- A command's checks pass exactly when no cause of R200 holds. -/
theorem firstFault_checksOf_eq_none {i : Instr} {s : State} :
    firstFault (checksOf i s) = none ↔ ∀ f, ¬ Cause i s f := by
  simp [firstFault_eq_none, ← mem_checksOf]

/-- The first check that fails is the smallest code whose cause holds (R201). -/
theorem firstFault_checksOf_eq_some {i : Instr} {s : State} {f : FaultCode} :
    firstFault (checksOf i s) = some f ↔ Cause i s f ∧ ∀ g, Cause i s g → f.code ≤ g.code := by
  simp only [firstFault_eq_some_iff (checksOf_pairwise i s), mem_checksOf]

/-- Where some cause holds, one of those that hold is reported (R201). -/
theorem exists_firstFault_of_cause {i : Instr} {s : State} {f : FaultCode} (h : Cause i s f) :
    ∃ g, Cause i s g ∧ firstFault (checksOf i s) = some g := by
  rcases hc : firstFault (checksOf i s) with _ | g
  · exact absurd h (firstFault_checksOf_eq_none.1 hc f)
  · exact ⟨g, (firstFault_checksOf_eq_some.1 hc).1, rfl⟩

/-! ### The two ends of a command -/

/-- A completion leaves FAULT (R203). -/
theorem complete_effectOf_first (i : Instr) (s : State) : (complete (effectOf i s)).first = s.first := by
  rw [complete_first, effectOf_first]

/-- A command that ends with a fault code has recorded it and done nothing else (R202). -/
theorem eq_raise_of_exec {i : Instr} {s t : State} {f : FaultCode} (h : exec i s = .next t) (ht : t.err = .fault f) :
    t = raise f s := by
  rcases exec_cases h with ⟨g, -, rfl⟩ | ⟨-, rfl⟩
  · obtain rfl : g = f := by simpa using ht
    rfl
  · simp at ht

/-- The record keeps the first code (R204). -/
theorem raise_first_of_ne_ok (f : FaultCode) {s : State} (h : s.first ≠ .ok) : (raise f s).first = s.first := by
  rw [raise_first, if_neg h]

/-- No command changes a FAULT that holds a code (R204). -/
theorem exec_first_of_ne_ok {i : Instr} {s t : State} (hs : s.first ≠ .ok) (h : exec i s = .next t) :
    t.first = s.first := by
  rcases exec_cases h with ⟨f, -, rfl⟩ | ⟨-, rfl⟩
  · exact raise_first_of_ne_ok f hs
  · exact complete_effectOf_first i s

/-! ### The statements -/

/-- Settles O9: a command is its checks and its effect, and `finish` answers a next state on both of its branches. -/
theorem everyCommandEndsInANextState : Obligations.EveryCommandEndsInANextState := exec_next

/-- Settles O35: a command's checks are the causes of R200 in the order of their codes. -/
theorem theSmallestApplyingCodeIsReported : Obligations.TheSmallestApplyingCodeIsReported := fun i s =>
  ⟨fun _ hf hmin => exec_of_fault (firstFault_checksOf_eq_some.2 ⟨hf, hmin⟩),
   fun hnone => ⟨_, exec_of_pass (firstFault_checksOf_eq_none.2 hnone), rfl, complete_effectOf_first i s⟩⟩

/-- Settles O36: a rejected word and a command that faults both end in `raise` of the code that ERR then holds. -/
theorem aFaultingCommandChangesOnlyItsRecord : Obligations.AFaultingCommandChangesOnlyItsRecord := by
  intro v s
  obtain ⟨t, ht⟩ := issue_next v s
  refine ⟨t, ht, fun f hf => ?_⟩
  rcases issue_cases ht with ⟨e, -, rfl⟩ | ⟨i, -, hexec⟩
  · obtain rfl : rejectFault e = f := by simpa using hf
    rfl
  · exact eq_raise_of_exec hexec hf

/-- Settles O37: the checks pass exactly when no cause holds, and then the command ends in `complete` of its effect, whose
ERR is 0 and whose FAULT is the one before. -/
theorem aCompletingCommandClearsErrAndKeepsFault : Obligations.ACompletingCommandClearsErrAndKeepsFault := by
  intro i s
  by_cases hcause : ∃ f, Cause i s f
  · obtain ⟨f, hf⟩ := hcause
    obtain ⟨g, hg, hfirst⟩ := exists_firstFault_of_cause hf
    exact ⟨_, exec_of_fault hfirst, fun _ => ⟨g, hg, rfl⟩, fun hnone => absurd hf (hnone f)⟩
  · have hpass := firstFault_checksOf_eq_none.2 (not_exists.1 hcause)
    have hkeep := complete_effectOf_first i s
    obtain ⟨-, hstatus, -⟩ := statusFaultAndCapFields.1 (complete (effectOf i s)) (.ok, 0) (by decide)
    refine ⟨_, exec_of_pass hpass, fun h => absurd h hcause, fun _ => ⟨rfl, hkeep, hstatus.1 rfl, ?_⟩⟩
    simp only [regRead, faultWord, hkeep]

/-- Settles O38: a fault's record and a completion keep a nonzero code, and no other step but a reset writes FAULT. -/
theorem firstFaultIsStickyUntilReset : Obligations.FirstFaultIsStickyUntilReset := by
  intro s t hs hreset h
  cases step_kind h with
  | @command _ _ rest _ _ hexec => exact exec_first_of_ne_ok (s := { s with host := rest }) hs hexec
  | @rejected _ e rest _ _ heq =>
    rw [heq]
    exact raise_first_of_ne_ok (rejectFault e) (s := { s with host := rest }) hs
  | reset hhost _ => simp [hhost] at hreset
  | access hframe _ _ => rw [hframe]

end Sys2Proof.Machine
end

section
/-! Reset, and the parameters no step changes (70_reset_and_hazards.md R220, R223). -/

namespace Sys2Proof.Machine

/-! ### CAP -/

/-- CAP is a function of the parameters (R32). -/
theorem regRead_cap_of_cfg_eq {s t : State} (h : t.cfg = s.cfg) : regRead t .cap = regRead s .cap := by
  simp only [regRead, h]

@[simp] theorem effectOf_cfg (i : Instr) (s : State) : (effectOf i s).cfg = s.cfg := by
  rw [effectOf_frame]

/-- No command changes a parameter, completing or faulting (R223). -/
theorem exec_cfg {i : Instr} {s t : State} (h : exec i s = .next t) : t.cfg = s.cfg := by
  rcases exec_cases h with ⟨f, -, rfl⟩ | ⟨-, rfl⟩
  · exact raise_cfg f s
  · rw [complete_cfg, effectOf_cfg]

/-- No step changes a parameter (R223). -/
theorem step_cfg {s t : State} (h : step s = .next t) : t.cfg = s.cfg := by
  cases step_kind h with
  | @command _ _ rest _ _ hexec => exact exec_cfg (s := { s with host := rest }) hexec
  | rejected _ _ heq => rw [heq, raise_cfg]
  | reset _ heq => rw [heq, resetBlock_cfg]
  | access hframe _ _ => rw [hframe]

/-- Settles O47: no kind of step changes a parameter, and CAP is a function of the parameters. -/
theorem capabilitiesNeverChange : Obligations.CapabilitiesNeverChange := fun _ _ h =>
  ⟨step_cfg h, regRead_cap_of_cfg_eq (step_cfg h)⟩

/-! ### Reset -/

/-- A pending reset is one step. -/
theorem step_of_reset {s : State} {rest : List HostOp} (h : s.host = .reset :: rest) :
    step s = .next (resetBlock { s with host := rest }) :=
  step_of_host h

@[simp] theorem regRead_resetBlock_status (s : State) : regRead (resetBlock s) .status = 0 :=
  BitVec.eq_of_toNat_eq (statusWord_toNat (resetBlock s))

@[simp] theorem regRead_resetBlock_fault (s : State) : regRead (resetBlock s) .fault = 0 :=
  BitVec.eq_of_toNat_eq (faultWord_toNat (resetBlock s))

/-- Settles O54: the step is `resetBlock`, which gives every field of the block its reset value and keeps the parameters
and memory; CAP stays as after every step. -/
theorem resetClearsTheBlockAndKeepsMemory : Obligations.ResetClearsTheBlockAndKeepsMemory := by
  intro s rest hhost
  have hstep := step_of_reset hhost
  obtain ⟨hcfg, hcap⟩ := capabilitiesNeverChange s _ hstep
  refine ⟨_, hstep, fun n => ?_, regRead_resetBlock_status _, regRead_resetBlock_fault _, resetBlock_a0 _,
    resetBlock_a1 _, resetBlock_a2 _, hcfg, hcap, resetBlock_mem _⟩
  simp

end Sys2Proof.Machine
end
